-- ==== Sys2Proof/Word.lean ====
section
/-! DEFINITION. The word, byte and register-index types (00_scope.md R5, R6). -/

namespace Sys2Proof

/-- A 32-bit value: a register, an address, the pc, an instruction word (R5). -/
abbrev Word := BitVec 32

/-- The unit an address names (R5, 20_memory.md R51). -/
abbrev Byte := BitVec 8

/-- A register index as the instruction word holds it, a 5-bit field (10_state.md R24, 30_encoding.md R81). -/
abbrev RegIdx := BitVec 5

end Sys2Proof
end

