-- ==== Sys2Proof/Syntax.lean ====
section
/-! DEFINITION. The instructions: one constructor per row of spec/opcode_table.json (00_scope.md R2). -/

namespace Sys2Proof

/-- The 15 instructions. Immediates are held as the formats define them: 12 bits for I and S (30_encoding.md R83,
R84), 13 bits with a low zero for B (R85, R91), 21 bits with a low zero for J (R86, R92). -/
inductive Instr where
  /-- ADD rd, rs1, rs2 (R160). -/
  | add (rd rs1 rs2 : RegIdx)
  /-- SUB rd, rs1, rs2 (R161). -/
  | sub (rd rs1 rs2 : RegIdx)
  /-- XOR rd, rs1, rs2 (R162). -/
  | xor (rd rs1 rs2 : RegIdx)
  /-- OR rd, rs1, rs2 (R163). -/
  | or (rd rs1 rs2 : RegIdx)
  /-- AND rd, rs1, rs2 (R164). -/
  | and (rd rs1 rs2 : RegIdx)
  /-- ADDI rd, rs1, imm (R170). -/
  | addi (rd rs1 : RegIdx) (imm : BitVec 12)
  /-- XORI rd, rs1, imm (R171). -/
  | xori (rd rs1 : RegIdx) (imm : BitVec 12)
  /-- ORI rd, rs1, imm (R172). -/
  | ori (rd rs1 : RegIdx) (imm : BitVec 12)
  /-- ANDI rd, rs1, imm (R173). -/
  | andi (rd rs1 : RegIdx) (imm : BitVec 12)
  /-- LW rd, imm(rs1) (R180). -/
  | lw (rd rs1 : RegIdx) (imm : BitVec 12)
  /-- SW rs2, imm(rs1) (R181): `rs1` is the base, `rs2` the data. -/
  | sw (rs1 rs2 : RegIdx) (imm : BitVec 12)
  /-- BEQ rs1, rs2, imm (R190). -/
  | beq (rs1 rs2 : RegIdx) (imm : BitVec 13)
  /-- BNE rs1, rs2, imm (R191). -/
  | bne (rs1 rs2 : RegIdx) (imm : BitVec 13)
  /-- JAL rd, imm (R192). -/
  | jal (rd : RegIdx) (imm : BitVec 21)
  /-- HALT (R200). `ignored` is bits 31:7 of the word, which no rule reads; it is kept so that the word is not lost. -/
  | halt (ignored : BitVec 25)
deriving DecidableEq, Repr

/-- The names of the 15 rows of spec/opcode_table.json. -/
inductive Mnemonic where
  | add | sub | xor | or | and | addi | xori | ori | andi | lw | sw | beq | bne | jal | halt
deriving DecidableEq, Repr

/-- The row an instruction belongs to. -/
def Instr.mnemonic : Instr → Mnemonic
  | .add _ _ _ => .add
  | .sub _ _ _ => .sub
  | .xor _ _ _ => .xor
  | .or _ _ _ => .or
  | .and _ _ _ => .and
  | .addi _ _ _ => .addi
  | .xori _ _ _ => .xori
  | .ori _ _ _ => .ori
  | .andi _ _ _ => .andi
  | .lw _ _ _ => .lw
  | .sw _ _ _ => .sw
  | .beq _ _ _ => .beq
  | .bne _ _ _ => .bne
  | .jal _ _ => .jal
  | .halt _ => .halt

end Sys2Proof
end

