-- ==== Sys2Proof/WellFormed.lean ====
section
/-! DEFINITION. Which instruction terms a word can encode: the implicit low zero bit of the B and J immediates. -/

namespace Sys2Proof

/-- A branch or jump immediate is even, "with an implicit low zero bit" (30_encoding.md R85, R86, R91, R92). Every
other operand is exactly its field, so it has no check. -/
def Instr.wf : Instr → Bool
  | .beq _ _ imm => !imm.getLsbD 0
  | .bne _ _ imm => !imm.getLsbD 0
  | .jal _ imm => !imm.getLsbD 0
  | .add _ _ _ => true
  | .sub _ _ _ => true
  | .xor _ _ _ => true
  | .or _ _ _ => true
  | .and _ _ _ => true
  | .addi _ _ _ => true
  | .xori _ _ _ => true
  | .ori _ _ _ => true
  | .andi _ _ _ => true
  | .lw _ _ _ => true
  | .sw _ _ _ => true
  | .halt _ => true

end Sys2Proof
end

