-- ==== Sys2Proof/Decode.lean ====
section
/-! DEFINITION. Fields, immediates, byte order of a word, the decoder, the encoder and the opcode table
(30_encoding.md). -/

namespace Sys2Proof

/-! ### Fields (R81) -/

/-- `instr[6:0]` -/
def opcodeOf (w : Word) : BitVec 7 := w.extractLsb' 0 7
/-- `instr[11:7]` -/
def rdOf (w : Word) : RegIdx := w.extractLsb' 7 5
/-- `instr[14:12]` -/
def funct3Of (w : Word) : BitVec 3 := w.extractLsb' 12 3
/-- `instr[19:15]` -/
def rs1Of (w : Word) : RegIdx := w.extractLsb' 15 5
/-- `instr[24:20]` -/
def rs2Of (w : Word) : RegIdx := w.extractLsb' 20 5
/-- `instr[31:25]` -/
def funct7Of (w : Word) : BitVec 7 := w.extractLsb' 25 7
/-- `instr[31:7]`, the bits HALT ignores (R99). -/
def ignoredOf (w : Word) : BitVec 25 := w.extractLsb' 7 25

/-- The 12 bits of `imm_I`: `instr[31:20]` (R83, R89). -/
def immIOf (w : Word) : BitVec 12 := w.extractLsb' 20 12

/-- The 12 bits of `imm_S`: `instr[31:25]`, `instr[11:7]` (R84, R90). -/
def immSOf (w : Word) : BitVec 12 := w.extractLsb' 25 7 ++ w.extractLsb' 7 5

/-- The 13 bits of `imm_B`: `instr[31]`, `instr[7]`, `instr[30:25]`, `instr[11:8]`, 0 (R85, R91). -/
def immBOf (w : Word) : BitVec 13 :=
  w.extractLsb' 31 1 ++ w.extractLsb' 7 1 ++ w.extractLsb' 25 6 ++ w.extractLsb' 8 4 ++ 0#1

/-- The 21 bits of `imm_J`: `instr[31]`, `instr[19:12]`, `instr[20]`, `instr[30:21]`, 0 (R86, R92). -/
def immJOf (w : Word) : BitVec 21 :=
  w.extractLsb' 31 1 ++ w.extractLsb' 12 8 ++ w.extractLsb' 20 1 ++ w.extractLsb' 21 10 ++ 0#1

/-! ### Byte order: both stores are big-endian (20_memory.md R52, R53) -/

/-- `{b0, b1, b2, b3}`, `b0` the byte at the lowest address. The order of instruction bytes is decision D3. -/
def wordOfBytes (b0 b1 b2 b3 : Byte) : Word := b0 ++ b1 ++ b2 ++ b3

/-- Byte `k` of a word counted from the lowest address: `v[31:24]`, `v[23:16]`, `v[15:8]`, `v[7:0]` (R52). -/
def byteOfWord (v : Word) : Nat → Byte
  | 0 => v.extractLsb' 24 8
  | 1 => v.extractLsb' 16 8
  | 2 => v.extractLsb' 8 8
  | _ => v.extractLsb' 0 8

/-- The four bytes of a word, lowest address first (R52, R243). -/
def bytesOfWord (v : Word) : List Byte := [byteOfWord v 0, byteOfWord v 1, byteOfWord v 2, byteOfWord v 3]

/-! ### The decoder (R93 to R101) -/

/-- Why a word or a sequence of bytes is no instruction. All but `truncated` are the illegal words of R100. -/
inductive DecodeReject where
  /-- Fewer than four bytes: no fetch ever yields this (20_memory.md R54 answers NotFound). -/
  | truncated (have_ : Nat)
  /-- A major opcode outside the seven of R93. -/
  | majorOpcode (op : BitVec 7)
  /-- Opcode 0x33 with a (funct7, funct3) pair outside R94. -/
  | arith (funct7 : BitVec 7) (funct3 : BitVec 3)
  /-- Opcode 0x13 with a funct3 outside R95. -/
  | arithImm (funct3 : BitVec 3)
  /-- Opcode 0x03 with a funct3 other than 0b010 (R96). -/
  | load (funct3 : BitVec 3)
  /-- Opcode 0x23 with a funct3 other than 0b010 (R97). -/
  | store (funct3 : BitVec 3)
  /-- Opcode 0x63 with a funct3 outside R98. -/
  | branch (funct3 : BitVec 3)
deriving DecidableEq, Repr

/-- Opcode 0x33: keyed on (funct3, funct7) (R94). -/
def decodeArith (w : Word) : Except DecodeReject Instr :=
  if funct3Of w = 0b000#3 ∧ funct7Of w = 0x00#7 then .ok (.add (rdOf w) (rs1Of w) (rs2Of w))
  else if funct3Of w = 0b000#3 ∧ funct7Of w = 0x20#7 then .ok (.sub (rdOf w) (rs1Of w) (rs2Of w))
  else if funct3Of w = 0b100#3 ∧ funct7Of w = 0x00#7 then .ok (.xor (rdOf w) (rs1Of w) (rs2Of w))
  else if funct3Of w = 0b110#3 ∧ funct7Of w = 0x00#7 then .ok (.or (rdOf w) (rs1Of w) (rs2Of w))
  else if funct3Of w = 0b111#3 ∧ funct7Of w = 0x00#7 then .ok (.and (rdOf w) (rs1Of w) (rs2Of w))
  else .error (.arith (funct7Of w) (funct3Of w))

/-- Opcode 0x13 (R95). -/
def decodeArithImm (w : Word) : Except DecodeReject Instr :=
  if funct3Of w = 0b000#3 then .ok (.addi (rdOf w) (rs1Of w) (immIOf w))
  else if funct3Of w = 0b100#3 then .ok (.xori (rdOf w) (rs1Of w) (immIOf w))
  else if funct3Of w = 0b110#3 then .ok (.ori (rdOf w) (rs1Of w) (immIOf w))
  else if funct3Of w = 0b111#3 then .ok (.andi (rdOf w) (rs1Of w) (immIOf w))
  else .error (.arithImm (funct3Of w))

/-- Opcode 0x03 (R96). -/
def decodeLoad (w : Word) : Except DecodeReject Instr :=
  if funct3Of w = 0b010#3 then .ok (.lw (rdOf w) (rs1Of w) (immIOf w)) else .error (.load (funct3Of w))

/-- Opcode 0x23 (R97). -/
def decodeStore (w : Word) : Except DecodeReject Instr :=
  if funct3Of w = 0b010#3 then .ok (.sw (rs1Of w) (rs2Of w) (immSOf w)) else .error (.store (funct3Of w))

/-- Opcode 0x63 (R98). -/
def decodeBranch (w : Word) : Except DecodeReject Instr :=
  if funct3Of w = 0b000#3 then .ok (.beq (rs1Of w) (rs2Of w) (immBOf w))
  else if funct3Of w = 0b001#3 then .ok (.bne (rs1Of w) (rs2Of w) (immBOf w))
  else .error (.branch (funct3Of w))

/-- The instruction a word encodes; the sentinel is tested first (R93, R101). -/
def decode (w : Word) : Except DecodeReject Instr :=
  if opcodeOf w = 0x7F#7 then .ok (.halt (ignoredOf w))
  else if opcodeOf w = 0x33#7 then decodeArith w
  else if opcodeOf w = 0x13#7 then decodeArithImm w
  else if opcodeOf w = 0x03#7 then decodeLoad w
  else if opcodeOf w = 0x23#7 then decodeStore w
  else if opcodeOf w = 0x63#7 then decodeBranch w
  else if opcodeOf w = 0x6F#7 then .ok (.jal (rdOf w) (immJOf w))
  else .error (.majorOpcode (opcodeOf w))

/-- The first instruction of a sequence of bytes, and the rest of it. An instruction is exactly four bytes, most
significant byte first (R80, 20_memory.md R53). -/
def decodeBytes : List Byte → Except DecodeReject (Instr × List Byte)
  | b0 :: b1 :: b2 :: b3 :: rest =>
    match decode (wordOfBytes b0 b1 b2 b3) with
    | .ok i => .ok (i, rest)
    | .error e => .error e
  | short => .error (.truncated short.length)

/-- The word whose low `nbits` bits are those of `w`, the bits above them zero. Every row has 32 bits (R80). -/
def tableWord (nbits w : Nat) : Word := BitVec.ofNat 32 (w % 2 ^ nbits)

/-- What the decoder reads from a table row's word, laid out as the hardware stores it (R53). -/
def decodeTableWord (nbits w : Nat) : Option Instr :=
  match decodeBytes (bytesOfWord (tableWord nbits w)) with
  | .ok (i, _) => some i
  | .error _ => none

/-! ### The encoder (R82 to R86, R94 to R99) -/

/-- R82. -/
def encodeR (funct7 : BitVec 7) (rs2 rs1 : RegIdx) (funct3 : BitVec 3) (rd : RegIdx) : Word :=
  funct7 ++ rs2 ++ rs1 ++ funct3 ++ rd ++ 0x33#7

/-- R83. -/
def encodeI (imm : BitVec 12) (rs1 : RegIdx) (funct3 : BitVec 3) (rd : RegIdx) (op : BitVec 7) : Word :=
  imm ++ rs1 ++ funct3 ++ rd ++ op

/-- R84. -/
def encodeS (imm : BitVec 12) (rs2 rs1 : RegIdx) (funct3 : BitVec 3) : Word :=
  imm.extractLsb' 5 7 ++ rs2 ++ rs1 ++ funct3 ++ imm.extractLsb' 0 5 ++ 0x23#7

/-- R85. -/
def encodeB (imm : BitVec 13) (rs2 rs1 : RegIdx) (funct3 : BitVec 3) : Word :=
  imm.extractLsb' 12 1 ++ imm.extractLsb' 5 6 ++ rs2 ++ rs1 ++ funct3 ++ imm.extractLsb' 1 4 ++
    imm.extractLsb' 11 1 ++ 0x63#7

/-- R86. -/
def encodeJ (imm : BitVec 21) (rd : RegIdx) : Word :=
  imm.extractLsb' 20 1 ++ imm.extractLsb' 1 10 ++ imm.extractLsb' 11 1 ++ imm.extractLsb' 12 8 ++ rd ++ 0x6F#7

/-- The word of a well-formed instruction. -/
def encode : Instr → Word
  | .add rd rs1 rs2 => encodeR 0x00#7 rs2 rs1 0b000#3 rd
  | .sub rd rs1 rs2 => encodeR 0x20#7 rs2 rs1 0b000#3 rd
  | .xor rd rs1 rs2 => encodeR 0x00#7 rs2 rs1 0b100#3 rd
  | .or rd rs1 rs2 => encodeR 0x00#7 rs2 rs1 0b110#3 rd
  | .and rd rs1 rs2 => encodeR 0x00#7 rs2 rs1 0b111#3 rd
  | .addi rd rs1 imm => encodeI imm rs1 0b000#3 rd 0x13#7
  | .xori rd rs1 imm => encodeI imm rs1 0b100#3 rd 0x13#7
  | .ori rd rs1 imm => encodeI imm rs1 0b110#3 rd 0x13#7
  | .andi rd rs1 imm => encodeI imm rs1 0b111#3 rd 0x13#7
  | .lw rd rs1 imm => encodeI imm rs1 0b010#3 rd 0x03#7
  | .sw rs1 rs2 imm => encodeS imm rs2 rs1 0b010#3
  | .beq rs1 rs2 imm => encodeB imm rs2 rs1 0b000#3
  | .bne rs1 rs2 imm => encodeB imm rs2 rs1 0b001#3
  | .jal rd imm => encodeJ imm rd
  | .halt ignored => ignored ++ 0x7F#7

/-- The four bytes of an instruction, lowest address first. -/
def encodeBytes (i : Instr) : List Byte := bytesOfWord (encode i)

/-! ### The opcode table (R94 to R99) -/

/-- A row of the opcode map: a word belongs to it when `word & mask = match_`. -/
structure OpRow where
  mnemonic : Mnemonic
  match_ : Word
  mask : Word
deriving DecidableEq, Repr

/-- The 14 rows the decoder knows (R94 to R99); the sentinel is tested before it (40_datapath.md R123). -/
def decoderRows : List OpRow :=
  [ ⟨.add, 0x00000033#32, 0xFE00707F#32⟩, ⟨.sub, 0x40000033#32, 0xFE00707F#32⟩,
    ⟨.xor, 0x00004033#32, 0xFE00707F#32⟩, ⟨.or, 0x00006033#32, 0xFE00707F#32⟩,
    ⟨.and, 0x00007033#32, 0xFE00707F#32⟩ ] ++
  [ ⟨.addi, 0x00000013#32, 0x0000707F#32⟩, ⟨.xori, 0x00004013#32, 0x0000707F#32⟩,
    ⟨.ori, 0x00006013#32, 0x0000707F#32⟩, ⟨.andi, 0x00007013#32, 0x0000707F#32⟩ ] ++
  [ ⟨.lw, 0x00002003#32, 0x0000707F#32⟩, ⟨.sw, 0x00002023#32, 0x0000707F#32⟩,
    ⟨.beq, 0x00000063#32, 0x0000707F#32⟩, ⟨.bne, 0x00001063#32, 0x0000707F#32⟩,
    ⟨.jal, 0x0000006F#32, 0x0000007F#32⟩ ]

/-- The 15 rows of spec/opcode_table.json. -/
def opcodeTable : List OpRow := decoderRows ++ [⟨.halt, 0x0000007F#32, 0x0000007F#32⟩]

/-- Does the row match the word? -/
def rowMatches (r : OpRow) (w : Word) : Bool := w &&& r.mask == r.match_

/-- The decoder row a word matches, if any (R100, R101). -/
def decoderRowOf (w : Word) : Option Mnemonic := (decoderRows.find? (fun r => rowMatches r w)).map (·.mnemonic)

/-- Two rows no word matches both of: they disagree on a bit both look at (R101). -/
def rowsDisjoint (r q : OpRow) : Bool := !(r.match_ &&& (r.mask &&& q.mask) == q.match_ &&& (r.mask &&& q.mask))

end Sys2Proof
end

