-- ==== Sys2Proof/Config.lean ====
section
/-! DEFINITION. The two OPEN parameters of the core (00_scope.md R5) that are not images. -/

namespace Sys2Proof

/-- DMEM_LIMIT and CTR_WIDTH (R5). DESIGN CHOICE (log entry 1): they are carried in `State` as data that no step
writes, so that every statement holds for every value of them. -/
structure Config where
  /-- DMEM_LIMIT: the first byte address the data store may not grow to (20_memory.md R59). -/
  dmemLimit : Nat
  /-- CTR_WIDTH: the width of the two counters (10_state.md R32, R33). -/
  ctrWidth : Nat
deriving DecidableEq, Repr

/-- The values R5 names: 2^32, which gives the document's behaviour, and the default 64 (log entry 4). -/
def defaultConfig : Config := { dmemLimit := 4294967296, ctrWidth := 64 }

/-- R5: DMEM_LIMIT is a multiple of 4 with 4 <= DMEM_LIMIT <= 2^32; a counter has at least one bit. -/
abbrev Config.wf (c : Config) : Prop :=
  c.dmemLimit % 4 = 0 ∧ 4 ≤ c.dmemLimit ∧ c.dmemLimit ≤ 4294967296 ∧ 1 ≤ c.ctrWidth

end Sys2Proof
end

