-- ==== Sys2Proof/Machine/State.lean ====
section
/-! DEFINITION. The whole state of the core (10_state.md R41, with the images and parameters of 00_scope.md R5),
the model's fault and refusal reasons, and the state after reset (R40). -/

namespace Sys2Proof.Machine

/-- Sparse memory: (address, byte) cells, addresses strictly rising, no cell holding `unlisted`. -/
abbrev Memory := List Host.Cell

/-- What an address with no cell reads as: "every byte at or above `dlen` reads as zero" and bytes never written read
0x00 (10_state.md R38, 20_memory.md R56). -/
abbrev unlisted : Byte := 0x00#8

/-- `run` (10_state.md R29). -/
inductive RunState where
  | running | halted
deriving DecidableEq, Repr

/-- `halt_cause` (10_state.md R30). -/
inductive HaltCause where
  | none | sentinel | endOfImage | fault
deriving DecidableEq, Repr

/-- The fault codes 0 to 3 of 60_exceptions.md R210, by name. -/
inductive FaultCode where
  | none | decodeError | regIndexOutOfRange | dataAddressOutOfRange
deriving DecidableEq, Repr

/-- The `fault` record (10_state.md R34): meaningful only when `halt_cause` is `Fault`. -/
structure FaultRecord where
  cause : FaultCode
  pc : Word
  instr : Word
  cycle : Nat
deriving DecidableEq, Repr

/-- Why the model itself stops. The core's own faults are no such stop: they are transitions of the machine
(60_exceptions.md R214), a NEXT state. -/
inductive Fault where
  /-- Raised only by `State.readIndex`, the register file's contract for an index of a wider type (10_state.md R24,
  60_exceptions.md R212: "an out-of-range read must be a fault, never a value"). No instruction and no step raises it.
  Safe. -/
  | regIndexOutOfRange (index : Nat)
deriving DecidableEq, Repr

/-- Why the model gives no meaning. -/
inductive Refusal where
  /-- Raised by an arm of `exec` whose instruction has no meaning yet: no arm does. Safe. -/
  | notModelled (mnemonic : String)
deriving DecidableEq, Repr

/-- The state (10_state.md R41), and beside it the instruction image and the parameters, which R41 calls arguments of
the step function and no step writes (DESIGN CHOICE, log entry 1). -/
structure State where
  /-- `x[1]` to `x[31]`: entry `i - 1` is register `i`; register 0 has no storage (R20, R21). -/
  x : Vector Word 31
  /-- R26. -/
  pc : Word
  /-- R29. -/
  run : RunState
  /-- R30. -/
  haltCause : HaltCause
  /-- `if_nop`, 1 bit (R31). -/
  ifNop : Bool
  /-- R32; counts modulo 2^CTR_WIDTH. -/
  cycle : Nat
  /-- R33; counts modulo 2^CTR_WIDTH. -/
  instret : Nat
  /-- R34. -/
  fault : FaultRecord
  /-- `DMEM` (R38). -/
  dmem : Memory
  /-- `dlen`, 0 to 2^32 (R38). -/
  dlen : Nat
  /-- `IMEM`, a constant of a run (R37). -/
  imem : Memory
  /-- `ILEN`, 0 to 2^32 (R5, R37). -/
  ilen : Nat
  /-- DMEM_LIMIT and CTR_WIDTH (R5). -/
  cfg : Config
deriving DecidableEq, Repr

/-- The state when reset is released (R40), with the empty images (log entry 2) and R5's values of the parameters
(log entry 4). The fault record's contents are unspecified by R40; zeros are the model's (DESIGN CHOICE, log entry 3).
`State.load` of Machine/Loader.lean is the same with any images. -/
def State.reset : State :=
  { x := Vector.replicate 31 0x00000000#32
    pc := 0x00000000#32
    run := .running
    haltCause := .none
    ifNop := false
    cycle := 0
    instret := 0
    fault := { cause := .none, pc := 0x00000000#32, instr := 0x00000000#32, cycle := 0 }
    dmem := []
    dlen := 0
    imem := []
    ilen := 0
    cfg := defaultConfig }

end Sys2Proof.Machine
end

