-- ==== Sys2Proof/Machine/Ops.lean ====
section
/-! DEFINITION. The named operations over memory, registers, counters and the run state: the access primitives of
20_memory.md R54 to R59, the register primitives of 10_state.md R20 to R24, retiring an instruction, a normal halt and
taking a fault (40_datapath.md R145 to R148, 60_exceptions.md R214). -/

namespace Sys2Proof.Machine

/-! ### Bytes of a memory -/

/-- The byte at an address. -/
def Memory.get (m : Memory) (a : Nat) : Byte :=
  match m with
  | [] => unlisted
  | (k, b) :: rest => if a = k then b else Memory.get rest a

/-- Put a cell in its place by address. -/
def Memory.insertCell (m : Memory) (a : Nat) (b : Byte) : Memory :=
  match m with
  | [] => [(a, b)]
  | (k, c) :: rest => if a < k then (a, b) :: (k, c) :: rest else (k, c) :: Memory.insertCell rest a b

/-- Write one byte, keeping the canonical form: writing what an unlisted address reads as removes the cell. -/
def Memory.put (m : Memory) (a : Nat) (b : Byte) : Memory :=
  let others := m.filter (fun c => decide (c.1 ≠ a))
  if b = unlisted then others else Memory.insertCell others a b

/-- The canonical form: addresses strictly rising, no cell holding what an unlisted address reads as. -/
abbrev Memory.wf (m : Memory) : Prop := m.Pairwise (fun c d => c.1 < d.1) ∧ ∀ c ∈ m, c.2 ≠ unlisted

/-- Every cell lies below `n`. -/
abbrev Memory.below (m : Memory) (n : Nat) : Prop := ∀ c ∈ m, c.1 < n

/-- The word at byte addresses `a` to `a + 3`, big-endian (20_memory.md R52, R53). -/
def Memory.getWord (m : Memory) (a : Nat) : Word :=
  wordOfBytes (m.get a) (m.get (a + 1)) (m.get (a + 2)) (m.get (a + 3))

/-- Overwrite the bytes at addresses `a` to `a + 3` with a word, big-endian (20_memory.md R52). -/
def Memory.putWord (m : Memory) (a : Nat) (v : Word) : Memory :=
  (((m.put a (byteOfWord v 0)).put (a + 1) (byteOfWord v 1)).put (a + 2) (byteOfWord v 2)).put (a + 3) (byteOfWord v 3)

/-! ### Registers (10_state.md R20 to R24) -/

/-- `x[i]`: zero for index 0, the stored value otherwise (00_scope.md R10). -/
def State.getReg (s : State) (i : RegIdx) : Word :=
  if i = 0#5 then 0x00000000#32 else s.x[i.toNat - 1]'(by have := i.isLt; omega)

/-- `x[i] <- v`: a write to index 0 is discarded (R21). -/
def State.setReg (s : State) (i : RegIdx) (v : Word) : State :=
  if i = 0#5 then s else { s with x := s.x.set (i.toNat - 1) v (by have := i.isLt; omega) }

/-- The register file's read contract for an index of a wider type (R24, 60_exceptions.md R212). The core presents
5-bit indices only, so no instruction uses it. -/
def State.readIndex (s : State) (i : Nat) : Except Fault Word :=
  if i < 32 then .ok (s.getReg (BitVec.ofNat 5 i)) else .error (.regIndexOutOfRange i)

/-- The register file's write contract for an index of a wider type: out of range it changes nothing (R212). -/
def State.writeIndex (s : State) (i : Nat) (v : Word) : State :=
  if i < 32 then s.setReg (BitVec.ofNat 5 i) v else s

/-! ### The access primitives (20_memory.md R54 to R59) -/

/-- `a & 0xFFFFFFFC`: the low two bits of every address are dropped (R55). -/
def alignDown (a : Word) : Word := a &&& 0xFFFFFFFC#32

/-- `IFetch(a)` (R54): `none` is NotFound. -/
def State.ifetch (s : State) (a : Word) : Option Word :=
  if (alignDown a).toNat + 4 > s.ilen then none else some (s.imem.getWord (alignDown a).toNat)

/-- The store holds the aligned word at `a`: the access does not raise `DataAddressOutOfRange` (R59). -/
def State.dmemInRange (s : State) (a : Word) : Bool := decide ((alignDown a).toNat + 4 ≤ s.cfg.dmemLimit)

/-- `dlen <- max(dlen, A + 4)` (R58). -/
def State.grow (s : State) (a : Word) : State := { s with dlen := max s.dlen ((alignDown a).toNat + 4) }

/-- The word `MemRead(a, 4)` returns (R56). -/
def State.dmemWord (s : State) (a : Word) : Word := s.dmem.getWord (alignDown a).toNat

/-- `MemRead(a, 4)` (R56): `none` is `raise DataAddressOutOfRange`. -/
def State.memRead (s : State) (a : Word) : Option (Word × State) :=
  if s.dmemInRange a then some (s.dmemWord a, s.grow a) else none

/-- The state after the four bytes at the aligned address are overwritten and the store has grown to hold them (R57,
R58). -/
def State.storeWord (s : State) (a v : Word) : State :=
  { s with dmem := s.dmem.putWord (alignDown a).toNat v, dlen := max s.dlen ((alignDown a).toNat + 4) }

/-- `MemWrite(a, 4, v)` (R57): `none` is `raise DataAddressOutOfRange`. -/
def State.memWrite (s : State) (a v : Word) : Option State :=
  if s.dmemInRange a then some (s.storeWord a v) else none

/-! ### Bookkeeping, halting, taking a fault -/

/-- One count of a counter of width CTR_WIDTH (40_datapath.md R120, R148). -/
def State.countUp (s : State) (n : Nat) : Nat := (n + 1) % 2 ^ s.cfg.ctrWidth

/-- Step 6 of the cycle: commit the next pc, clear the idle flag, count both counters (R146 to R148). -/
def State.retire (s : State) (npc : Word) : State :=
  { s with pc := npc, ifNop := false, instret := s.countUp s.instret, cycle := s.countUp s.cycle }

/-- A normal halt: the pc is held, only `cycle` counts (R145, R147, R148; 45_halt.md R200, R201). -/
def State.haltNormally (s : State) (c : HaltCause) : State :=
  { s with run := .halted, haltCause := c, ifNop := true, cycle := s.countUp s.cycle }

/-- TAKING A FAULT (60_exceptions.md R214): the run halts, the record is written, nothing else changes. There is no
return from it (R219): only reset leaves the halted state. -/
def State.takeFault (s : State) (c : FaultCode) (w : Word) : State :=
  { s with
    run := .halted, haltCause := .fault, ifNop := true
    fault := { cause := c, pc := s.pc, instr := w, cycle := s.cycle } }

/-- The code's number, 2 bits (R210). -/
def FaultCode.code : FaultCode → BitVec 2
  | .none => 0#2
  | .decodeError => 1#2
  | .regIndexOutOfRange => 2#2
  | .dataAddressOutOfRange => 3#2

end Sys2Proof.Machine
end

