-- ==== Sys2Proof/Machine/Operands.lean ====
section
/-! DEFINITION. Sign extension, the ALU and the one addressing mode (30_encoding.md R88, 40_datapath.md R128, R129,
43_load_store.md). -/

namespace Sys2Proof.Machine

/-- `sext_N`: every immediate is sign-extended to the full word before use (00_scope.md R8, 30_encoding.md R88). -/
def sext {n : Nat} (imm : BitVec n) : Word := imm.signExtend 32

/-- The ALU's closed set of operations (R129). -/
inductive AluOp where
  | add | sub | xor | or | and
deriving DecidableEq, Repr

/-- `ALU(op, a, b)`; sum and difference modulo 2^32 (R129, 00_scope.md R9). -/
def alu (op : AluOp) (a b : Word) : Word :=
  match op with
  | .add => a + b
  | .sub => a - b
  | .xor => a ^^^ b
  | .or => a ||| b
  | .and => a &&& b

/-- The effective address: base register plus sign-extended displacement, modulo 2^32 (R128, R180, R181). -/
def State.effAddr (s : State) (base : RegIdx) (imm : BitVec 12) : Word := alu .add (s.getReg base) (sext imm)

end Sys2Proof.Machine
end

