-- ==== Sys2Proof/Machine/Flags.lean ====
section
/-! DEFINITION. The core has no flags (10_state.md R36): the one condition is the zero result of the ALU, computed and
consumed inside a cycle (40_datapath.md R127, R129, R130). -/

namespace Sys2Proof.Machine

/-- The condition selector `bcond` (10_state.md R39, R127). -/
inductive BCond where
  | eq | ne | always
deriving DecidableEq, Repr

/-- "the zero result": the ALU's result is 0x00000000 (R129). -/
def zeroResult (r : Word) : Bool := r == 0x00000000#32

/-- `taken` (R130). -/
def condHolds (c : BCond) (r : Word) : Bool :=
  match c with
  | .eq => zeroResult r
  | .ne => !zeroResult r
  | .always => true

end Sys2Proof.Machine
end

