-- ==== Sys2Proof/Machine/BranchJump.lean ====
section
/-! DEFINITION. Control transfer (44_branch_jump.md R190 to R192). -/

namespace Sys2Proof.Machine

/-- The frame of BEQ and BNE: SUB, test the zero result, branch to the branch's own address plus `imm` (R130). -/
def State.branch (s : State) (c : BCond) (rs1 rs2 : RegIdx) (imm : BitVec 13) : State :=
  s.retire (if condHolds c (alu .sub (s.getReg rs1) (s.getReg rs2)) then s.pc + sext imm else s.pc + 4#32)

/-- R190. -/
def execBeq (rs1 rs2 : RegIdx) (imm : BitVec 13) (s : State) : Host.Outcome State Fault Refusal :=
  .next (s.branch .eq rs1 rs2 imm)

/-- R191. -/
def execBne (rs1 rs2 : RegIdx) (imm : BitVec 13) (s : State) : Host.Outcome State Fault Refusal :=
  .next (s.branch .ne rs1 rs2 imm)

/-- JAL (R192): link `pc + 4`, then jump to `pc + imm`; both use the pc of the JAL itself (R131). -/
def execJal (rd : RegIdx) (imm : BitVec 21) (s : State) : Host.Outcome State Fault Refusal :=
  .next ((s.setReg rd (s.pc + 4#32)).retire (s.pc + sext imm))

end Sys2Proof.Machine
end

