-- ==== Sys2Proof/Machine/Halt.lean ====
section
/-! DEFINITION. Halting: the sentinel, the end of the image, and the fault of an illegal word (45_halt.md R200, R201,
60_exceptions.md R211). -/

namespace Sys2Proof.Machine

/-- HALT (R200): bits 31:7 of the word are ignored. -/
def execHalt (_ignored : BitVec 25) (s : State) : Host.Outcome State Fault Refusal := .next (s.haltNormally .sentinel)

/-- The fetch found no word (R201). -/
def State.endOfImage (s : State) : State := s.haltNormally .endOfImage

/-- The fetched word matches no row: `DecodeError` (R211, R214). -/
def State.decodeFault (s : State) (w : Word) : State := s.takeFault .decodeError w

end Sys2Proof.Machine
end

