-- ==== Sys2Proof/Machine/IType.lean ====
section
/-! DEFINITION. I-type arithmetic (42_i_type_arith.md R170 to R173). -/

namespace Sys2Proof.Machine

/-- The frame of the family: the immediate is sign-extended for the logical operations too. -/
def State.arithImm (s : State) (op : AluOp) (rd rs1 : RegIdx) (imm : BitVec 12) : State :=
  (s.setReg rd (alu op (s.getReg rs1) (sext imm))).retire (s.pc + 4#32)

/-- R170. -/
def execAddi (rd rs1 : RegIdx) (imm : BitVec 12) (s : State) : Host.Outcome State Fault Refusal :=
  .next (s.arithImm .add rd rs1 imm)

/-- R171. -/
def execXori (rd rs1 : RegIdx) (imm : BitVec 12) (s : State) : Host.Outcome State Fault Refusal :=
  .next (s.arithImm .xor rd rs1 imm)

/-- R172. -/
def execOri (rd rs1 : RegIdx) (imm : BitVec 12) (s : State) : Host.Outcome State Fault Refusal :=
  .next (s.arithImm .or rd rs1 imm)

/-- R173. -/
def execAndi (rd rs1 : RegIdx) (imm : BitVec 12) (s : State) : Host.Outcome State Fault Refusal :=
  .next (s.arithImm .and rd rs1 imm)

end Sys2Proof.Machine
end

