-- ==== Sys2Proof/Machine/LoadStore.lean ====
section
/-! DEFINITION. Load and store (43_load_store.md R180, R181). An access beyond DMEM_LIMIT takes the fault transition
with the instruction's own word (60_exceptions.md R213, R214); `encode` gives that word back. -/

namespace Sys2Proof.Machine

/-- LW (R180): the address uses the old registers; the read grows the store also when `rd` is 0. -/
def execLw (rd rs1 : RegIdx) (imm : BitVec 12) (s : State) : Host.Outcome State Fault Refusal :=
  match s.memRead (s.effAddr rs1 imm) with
  | some (w, s') => .next ((s'.setReg rd w).retire (s.pc + 4#32))
  | none => .next (s.takeFault .dataAddressOutOfRange (encode (.lw rd rs1 imm)))

/-- SW (R181): the second ALU operand is the immediate, register 2 is the data (R128, 90_conflicts.md C2). -/
def execSw (rs1 rs2 : RegIdx) (imm : BitVec 12) (s : State) : Host.Outcome State Fault Refusal :=
  match s.memWrite (s.effAddr rs1 imm) (s.getReg rs2) with
  | some s' => .next (s'.retire (s.pc + 4#32))
  | none => .next (s.takeFault .dataAddressOutOfRange (encode (.sw rs1 rs2 imm)))

end Sys2Proof.Machine
end

