-- ==== Sys2Proof/Machine/RType.lean ====
section
/-! DEFINITION. R-type arithmetic (41_r_type_arith.md R160 to R164). -/

namespace Sys2Proof.Machine

/-- The frame of the family: both sources are read before the write; the pc advances by 4. -/
def State.arith (s : State) (op : AluOp) (rd rs1 rs2 : RegIdx) : State :=
  (s.setReg rd (alu op (s.getReg rs1) (s.getReg rs2))).retire (s.pc + 4#32)

/-- R160. -/
def execAdd (rd rs1 rs2 : RegIdx) (s : State) : Host.Outcome State Fault Refusal := .next (s.arith .add rd rs1 rs2)

/-- R161. -/
def execSub (rd rs1 rs2 : RegIdx) (s : State) : Host.Outcome State Fault Refusal := .next (s.arith .sub rd rs1 rs2)

/-- R162. -/
def execXor (rd rs1 rs2 : RegIdx) (s : State) : Host.Outcome State Fault Refusal := .next (s.arith .xor rd rs1 rs2)

/-- R163. -/
def execOr (rd rs1 rs2 : RegIdx) (s : State) : Host.Outcome State Fault Refusal := .next (s.arith .or rd rs1 rs2)

/-- R164. -/
def execAnd (rd rs1 rs2 : RegIdx) (s : State) : Host.Outcome State Fault Refusal := .next (s.arith .and rd rs1 rs2)

end Sys2Proof.Machine
end

