-- ==== Sys2Proof/Machine/Cycle.lean ====
section
/-! DEFINITION. One cycle: the order of events of 40_datapath.md R120 to R123 and 60_exceptions.md R217. -/

namespace Sys2Proof.Machine

/-- A cycle that starts Running: NotFound, then the word; the decoder tests the sentinel first (30_encoding.md R101). -/
def State.runningCycle (s : State) : Host.Outcome State Fault Refusal :=
  match s.ifetch s.pc with
  | none => .next s.endOfImage
  | some w =>
    match decode w with
    | .error _ => .next (s.decodeFault w)
    | .ok i => exec i s

/-- A cycle that starts Halted changes nothing (R121). -/
def State.cycleOnce (s : State) : Host.Outcome State Fault Refusal :=
  match s.run with
  | .halted => .next s
  | .running => s.runningCycle

end Sys2Proof.Machine
end

