-- ==== Sys2Proof/Machine/Loader.lean ====
section
/-! DEFINITION. The loader and reset: filling the two stores before the first cycle (70_reset_and_hazards.md R240 to
R243, 10_state.md R37, R40) and placing one instruction word in the image. -/

namespace Sys2Proof.Machine

/-- One image line: eight characters `0` or `1`, the first one bit 7 (R243; the bit order is decision D18). -/
def byteOfLine (line : List Char) : Option Byte :=
  if line.length = 8 ∧ line.all (fun c => c == '0' || c == '1') then
    some (line.foldl (fun b c => b <<< 1 ||| (if c == '1' then 1#8 else 0#8)) 0#8)
  else none

/-- A byte as eight binary digits, bit 7 first (70_reset_and_hazards.md R248: "in the same form as the input image"). -/
def lineOfByte (b : Byte) : List Char := (List.range 8).map (fun k => if b.getLsbD (7 - k) then '1' else '0')

/-- The bytes of an image at addresses `a`, `a + 1`, … in order (R243). -/
def Memory.fill (m : Memory) (a : Nat) : List Byte → Memory
  | [] => m
  | b :: rest => Memory.fill (m.put a b) (a + 1) rest

/-- The state when reset is released over an instruction image and a data image, both placed from address 0 (R40,
R240, R243; placement is decision D18, reset values D2). -/
def State.load (image dimage : List Byte) (cfg : Config) : State :=
  { State.reset with
    imem := Memory.fill [] 0 image, ilen := image.length
    dmem := Memory.fill [] 0 dimage, dlen := dimage.length
    cfg := cfg }

/-- A clock edge with `rst` asserted: every piece of state takes its reset value, `DMEM` the data image again; `IMEM`
is not changed (R240, R242). -/
def State.applyReset (s : State) (dimage : List Byte) : State :=
  { State.reset with
    imem := s.imem, ilen := s.ilen
    dmem := Memory.fill [] 0 dimage, dlen := dimage.length
    cfg := s.cfg }

/-- The image with a word at the aligned address of `a`, lengthened to hold it. This is the loader's act, no step. -/
def State.placeWord (s : State) (a w : Word) : State :=
  { s with imem := s.imem.putWord (alignDown a).toNat w, ilen := max s.ilen ((alignDown a).toNat + 4) }

/-- A halted state made a Running one again, as reset leaves these three (R29 to R31). Only `withFetchWord` uses it. -/
def State.releaseRun (s : State) : State := { s with run := .running, haltCause := .none, ifNop := false }

end Sys2Proof.Machine
end

