-- ==== Sys2Proof/Machine/Step.lean ====
section
/-! DEFINITION. The step: one clock cycle (00_scope.md R14, 40_datapath.md R120). -/

namespace Sys2Proof.Machine

/-- One cycle of the core. -/
def step (s : State) : Host.Outcome State Fault Refusal := s.cycleOnce

/-- `s` with a table row's word in the instruction image where the next fetch reads it (log entry 5). A halted core
fetches nothing (R121), so a halted state is made Running; of a Running one only the image changes. -/
def State.withFetchWord (s : State) (nbits w : Nat) : State :=
  match s.run with
  | .running => s.placeWord s.pc (tableWord nbits w)
  | .halted => s.releaseRun.placeWord s.pc (tableWord nbits w)

end Sys2Proof.Machine
end

