-- ==== Sys2Proof/Machine/Datapath.lean ====
section
/-! DEFINITION. The datapath as 40_datapath.md draws it: the decoder's EX record and control signals (R124, R126), the
blocks, and the cycle of R120 written from its pseudocode. `step` is written per instruction; that the two agree is a
statement. -/

namespace Sys2Proof.Machine

/-- The EX stage record (10_state.md R39): wires inside one cycle, no state. `bcond` is `none` where R126 says
"unused"; "not used (0)" indices and immediates are 0 (R124, 93_implementation_defined.md U10). -/
structure ExRecord where
  rs1 : RegIdx
  rs2 : RegIdx
  rd : RegIdx
  imm : Word
  isImm : Bool
  rdMem : Bool
  wrMem : Bool
  wrEn : Bool
  branch : Bool
  aluOp : AluOp
  bcond : Option BCond
deriving DecidableEq, Repr

/-- The instruction classes the decoder tells apart (30_encoding.md R93). -/
inductive InstrClass where
  | arith (op : AluOp) | arithImm (op : AluOp) | load | store | branch (c : BCond) | jump
deriving DecidableEq, Repr

/-- The class of a decoder row; the sentinel's row never reaches the decoder (R123). -/
def classOf : Mnemonic → Option InstrClass
  | .add => some (.arith .add)
  | .sub => some (.arith .sub)
  | .xor => some (.arith .xor)
  | .or => some (.arith .or)
  | .and => some (.arith .and)
  | .addi => some (.arithImm .add)
  | .xori => some (.arithImm .xor)
  | .ori => some (.arithImm .or)
  | .andi => some (.arithImm .and)
  | .lw => some .load
  | .sw => some .store
  | .beq => some (.branch .eq)
  | .bne => some (.branch .ne)
  | .jal => some .jump
  | .halt => none

/-- The tables of R124 (fields and immediate) and R126 (control signals) per class. -/
def exOfClass (w : Word) : InstrClass → ExRecord
  | .arith op =>
    { rs1 := rs1Of w, rs2 := rs2Of w, rd := rdOf w, imm := 0#32, isImm := false, rdMem := false, wrMem := false
      wrEn := true, branch := false, aluOp := op, bcond := none }
  | .arithImm op =>
    { rs1 := rs1Of w, rs2 := 0#5, rd := rdOf w, imm := sext (immIOf w), isImm := true, rdMem := false, wrMem := false
      wrEn := true, branch := false, aluOp := op, bcond := none }
  | .load =>
    { rs1 := rs1Of w, rs2 := 0#5, rd := rdOf w, imm := sext (immIOf w), isImm := true, rdMem := true, wrMem := false
      wrEn := true, branch := false, aluOp := .add, bcond := none }
  | .store =>
    { rs1 := rs1Of w, rs2 := rs2Of w, rd := 0#5, imm := sext (immSOf w), isImm := true, rdMem := false, wrMem := true
      wrEn := false, branch := false, aluOp := .add, bcond := none }
  | .branch c =>
    { rs1 := rs1Of w, rs2 := rs2Of w, rd := 0#5, imm := sext (immBOf w), isImm := false, rdMem := false, wrMem := false
      wrEn := false, branch := true, aluOp := .sub, bcond := some c }
  | .jump =>
    { rs1 := 0#5, rs2 := 0#5, rd := rdOf w, imm := sext (immJOf w), isImm := true, rdMem := false, wrMem := false
      wrEn := true, branch := true, aluOp := .add, bcond := some .always }

/-- `Decode(instr)` of R124, by the match and mask table: `none` is `raise DecodeError`. -/
def exOf (w : Word) : Option ExRecord := ((decoderRowOf w).bind classOf).map (exOfClass w)

/-- What steps 2 and 3 put on the wires (R125, R128 to R131). -/
structure ExecuteOut where
  aluResult : Word
  storeData : Word
  npc : Word
deriving DecidableEq, Repr

/-- Steps 2 and 3 of R120: operand read, operand selection, ALU, branch unit, link value. -/
def State.execute (s : State) (d : ExRecord) : ExecuteOut :=
  let rs1Val := s.getReg d.rs1
  let rs2Val := s.getReg d.rs2
  let op2 := if d.isImm then d.imm else rs2Val
  let result := alu d.aluOp rs1Val op2
  let taken := d.branch && ((d.bcond == some .eq && result == 0#32) || (d.bcond == some .ne && result != 0#32)
    || d.bcond == some .always)
  { aluResult := if d.branch && d.bcond == some .always then s.pc + 4#32 else result
    storeData := rs2Val
    npc := if taken then s.pc + d.imm else s.pc + 4#32 }

/-- Step 4 of R120 (R140): the loaded word, if a load, and the state with the access done; `none` is
`raise DataAddressOutOfRange`. -/
def State.memoryAccess (s : State) (d : ExRecord) (e : ExecuteOut) : Option (Word × State) :=
  if d.rdMem then s.memRead e.aluResult
  else if d.wrMem then (s.memWrite e.aluResult e.storeData).map (fun t => (0#32, t))
  else some (0#32, s)

/-- Step 5 of R120 (R141, R142): the writeback multiplexer and the register write. -/
def State.writeback (s : State) (d : ExRecord) (e : ExecuteOut) (ld : Word) : State :=
  if d.wrEn then s.setReg d.rd (if d.rdMem then ld else e.aluResult) else s

/-- The cycle of R120, from its pseudocode. -/
def State.datapathCycle (s : State) : State :=
  if s.run = .halted then s
  else
    match s.ifetch s.pc with
    | none => { s with run := .halted, haltCause := .endOfImage, ifNop := true, cycle := s.countUp s.cycle }
    | some instr =>
      if opcodeOf instr = 0x7F#7 then
        { s with run := .halted, haltCause := .sentinel, ifNop := true, cycle := s.countUp s.cycle }
      else
        match exOf instr with
        | none => s.takeFault .decodeError instr
        | some d =>
          let e := s.execute d
          match s.memoryAccess d e with
          | none => s.takeFault .dataAddressOutOfRange instr
          | some (ld, t) => (t.writeback d e ld).retire e.npc

end Sys2Proof.Machine
end

