-- ==== Sys2Proof/Machine/Ports.lean ====
section
/-! DEFINITION. What the host sees: the snapshot outputs and the bus ports of 10_state.md R42, the trace record, the
data dump and the performance summary (40_datapath.md R149, R150, 70_reset_and_hazards.md R245 to R248). Reading any of
them changes nothing (60_exceptions.md R222). -/

namespace Sys2Proof.Machine

/-- The snapshot outputs (R42). -/
structure Snapshot where
  regs : Vector Word 32
  pc : Word
  nop : Bool
  halted : Bool
  cause : HaltCause
  cycle : Nat
  instret : Nat
  /-- Shown only when `snap_cause` is `Fault`: before that the record's contents are unspecified (R34). -/
  fault : Option FaultRecord
deriving DecidableEq, Repr

/-- The registered values (R42). -/
def State.snapshot (s : State) : Snapshot :=
  { regs := Vector.ofFn (fun i : Fin 32 => s.getReg (BitVec.ofNat 5 i.val))
    pc := s.pc
    nop := s.ifNop
    halted := s.run == .halted
    cause := s.haltCause
    cycle := s.cycle
    instret := s.instret
    fault := if s.haltCause = .fault then some s.fault else none }

/-- The trace record of one cycle (R149, R247): the cycle's number and the snapshot after it. -/
structure TraceRecord where
  number : Nat
  after : Snapshot
deriving DecidableEq, Repr

/-- What the core offers at the end of a cycle: one record for a cycle that started Running, none for a halted one
(R149, R121). -/
def State.traceRecord (s : State) : Option TraceRecord :=
  match s.run, step s with
  | .running, .next t => some { number := s.cycle, after := t.snapshot }
  | _, _ => none

/-- The records of the next `n` cycles, in cycle order (R149). -/
def State.trace (s : State) : Nat → List TraceRecord
  | 0 => []
  | n + 1 =>
    match s.run, step s with
    | .running, .next t => { number := s.cycle, after := t.snapshot } :: State.trace t n
    | _, _ => []

/-- `dump()`: `DMEM[0]` to `DMEM[dlen-1]` in address order (R42, R248). -/
def State.dump (s : State) : List Byte := (List.range s.dlen).map (fun a => s.dmem.get a)

/-- `CPI = cycle / instret`, 0 when nothing was executed (R150). -/
def State.cpi (s : State) : Rat := if s.instret = 0 then 0 else (s.cycle : Rat) / (s.instret : Rat)

/-- `IPC = instret / cycle`, 0 when no cycle was counted (R150). -/
def State.ipc (s : State) : Rat := if s.cycle = 0 then 0 else (s.instret : Rat) / (s.cycle : Rat)

/-- The EX record of the instruction a cycle executes, if it executes one (R121 to R124). -/
def State.cycleEx (s : State) : Option ExRecord :=
  if s.run = .halted then none
  else
    match s.ifetch s.pc with
    | none => none
    | some instr => if opcodeOf instr = 0x7F#7 then none else exOf instr

/-- `imem_addr`: the pc, unmodified (R28, R42). -/
def State.imemAddr (s : State) : Word := s.pc

/-- `imem_found` and `imem_word` (R42). -/
def State.imemAnswer (s : State) : Option Word := s.ifetch s.imemAddr

/-- The MEM stage record (10_state.md R39): wires inside one cycle, no state. -/
structure MemRecord where
  aluResult : Word
  storeData : Word
  rd : RegIdx
  rdMem : Bool
  wrMem : Bool
  wrEn : Bool
deriving DecidableEq, Repr

/-- The MEM record of the instruction a cycle executes: the outputs of step 3 and the signals passed on (R39, R140).
A cycle that executes no instruction skips the memory step and has none (R121, R123, 60_exceptions.md R211). -/
def State.memRecord (s : State) : Option MemRecord :=
  s.cycleEx.map (fun d =>
    { aluResult := (s.execute d).aluResult, storeData := (s.execute d).storeData, rd := d.rd, rdMem := d.rdMem
      wrMem := d.wrMem, wrEn := d.wrEn })

/-- The outputs of the data port in one cycle (R42). -/
structure DataPort where
  /-- `dmem_addr`: `none` where the cycle has no MEM record, of which the spec gives no value (log entry 10). -/
  addr : Option Word
  /-- `dmem_re`. -/
  re : Bool
  /-- `dmem_we`. -/
  we : Bool
  /-- `dmem_wdata`: `none` as for `addr`. -/
  wdata : Option Word
deriving DecidableEq, Repr

/-- The data port (R42): `MEM.alu_result` unmodified, `MEM.rd_mem`, `MEM.wr_mem`, `MEM.store_data`, in every cycle
that executes an instruction, a refused access among them; both strobes 0 in every other cycle (R121, R123). -/
def State.dataPort (s : State) : DataPort :=
  match s.memRecord with
  | some m => { addr := some m.aluResult, re := m.rdMem, we := m.wrMem, wdata := some m.storeData }
  | none => { addr := none, re := false, we := false, wdata := none }

/-- `dmem_rdata`: the word `MemRead(dmem_addr, 4)`, combinational (R42); `none` where the store refuses the address
(20_memory.md R59) or the port carries none. -/
def State.dmemAnswer (s : State) : Option Word := s.dataPort.addr.bind (fun a => (s.memRead a).map Prod.fst)

/-- An access of the data store (R42): at most one in a cycle (20_memory.md R61). -/
inductive DmemRequest where
  /-- A `MemRead`. -/
  | read (addr : Word)
  /-- A `MemWrite`. -/
  | write (addr data : Word)
deriving DecidableEq, Repr

/-- The access the data store performs in the cycle: the one the strobes ask for, unless it lies beyond DMEM_LIMIT,
when it "does not happen" (20_memory.md R59, R140). -/
def State.dmemRequest (s : State) : Option DmemRequest :=
  match s.memRecord with
  | none => none
  | some m =>
    if s.dmemInRange m.aluResult then
      if m.rdMem then some (.read m.aluResult)
      else if m.wrMem then some (.write m.aluResult m.storeData)
      else none
    else none

end Sys2Proof.Machine
end

