-- ==== Sys2Proof/Safety.lean ====
section
/-! DEFINITION. The end of a run (45_halt.md R202), the invariants of the machine, and the words the statements use for
what a transition changes and what it leaves. -/

namespace Sys2Proof.Machine

/-! ### The end of a run (R202) -/

/-- "A run is over when `run == Halted`." -/
abbrev State.over (s : State) : Prop := s.run = .halted

/-- It ended normally: `Sentinel` or `EndOfImage`. -/
abbrev State.endedNormally (s : State) : Prop :=
  s.run = .halted ∧ (s.haltCause = .sentinel ∨ s.haltCause = .endOfImage)

/-- It ended in a fault. A claim of completion excludes this (60_exceptions.md R214). -/
abbrev State.endedInFault (s : State) : Prop := s.run = .halted ∧ s.haltCause = .fault

/-! ### Invariants -/

/-- Both memories are in canonical form, within their lengths, and the lengths within their bounds (R5, R37, R38,
20_memory.md R59). -/
abbrev State.memWf (s : State) : Prop :=
  s.dmem.wf ∧ s.imem.wf ∧ s.dmem.below s.dlen ∧ s.imem.below s.ilen ∧
    s.dlen ≤ s.cfg.dmemLimit ∧ s.ilen ≤ 4294967296

/-- `halt_cause` is `None` exactly while Running (R30); `if_nop` is 1 exactly when Halted (R31); a recorded fault has
a cause the core can raise (60_exceptions.md R210, R212). -/
abbrev State.runWf (s : State) : Prop :=
  (s.haltCause = .none ↔ s.run = .running) ∧ (s.ifNop = true ↔ s.run = .halted) ∧
    (s.haltCause = .fault → s.fault.cause = .decodeError ∨ s.fault.cause = .dataAddressOutOfRange)

/-- The counters, and the cycle number of the fault record, fit their width (R32 to R34). -/
abbrev State.countersFit (s : State) : Prop :=
  s.cycle < 2 ^ s.cfg.ctrWidth ∧ s.instret < 2 ^ s.cfg.ctrWidth ∧ s.fault.cycle < 2 ^ s.cfg.ctrWidth

/-- The invariant of the machine. -/
abbrev State.Inv (s : State) : Prop := s.cfg.wf ∧ s.memWf ∧ s.runWf ∧ s.countersFit

/-- What the counters count (40_datapath.md R148, decision D11): as many cycles as instructions, and one more after a
normal halt. -/
abbrev State.CountersAgree (s : State) : Prop :=
  (s.run = .running → s.cycle = s.instret) ∧
  (s.run = .halted → s.haltCause = .fault → s.cycle = s.instret) ∧
  (s.run = .halted → s.haltCause ≠ .fault → s.cycle = s.countUp s.instret)

/-- The pc is even: branch and jump immediates are multiples of 2 (10_state.md R28). -/
abbrev State.pcEven (s : State) : Prop := s.pc.getLsbD 0 = false

/-! ### What a transition changes -/

/-- `o` is a next state with the property `P`. -/
def Completes (o : Host.Outcome State Fault Refusal) (P : State → Prop) : Prop := ∃ t, o = .next t ∧ P t

/-- The image and the parameters are those of `s`. -/
structure SameImage (s t : State) : Prop where
  imem : t.imem = s.imem
  ilen : t.ilen = s.ilen
  cfg : t.cfg = s.cfg

/-- Every byte of the data store and its length are those of `s`. -/
structure SameData (s t : State) : Prop where
  bytes : ∀ a, t.dmem.get a = s.dmem.get a
  dlen : t.dlen = s.dlen

/-- Every register reads as in `s`. -/
def SameRegs (s t : State) : Prop := ∀ r, t.getReg r = s.getReg r

/-- Register `rd` reads `v`, unless it is x0, and every other register reads as in `s`. -/
def OnlyReg (s t : State) (rd : RegIdx) (v : Word) : Prop :=
  ∀ r, t.getReg r = if r = rd ∧ r ≠ 0#5 then v else s.getReg r

/-- The bookkeeping of an executed instruction: the next pc is `npc`, both counters count, the idle flag is clear, and
run, halt cause, fault record, image and parameters are those of `s`. -/
structure Retired (s t : State) (npc : Word) : Prop where
  pc : t.pc = npc
  ifNop : t.ifNop = false
  instret : t.instret = (s.instret + 1) % 2 ^ s.cfg.ctrWidth
  cycle : t.cycle = (s.cycle + 1) % 2 ^ s.cfg.ctrWidth
  run : t.run = s.run
  haltCause : t.haltCause = s.haltCause
  fault : t.fault = s.fault
  image : SameImage s t

/-- A normal halt with cause `c`: pc, instret, registers, data and everything else are those of `s`. -/
structure HaltedNormally (s t : State) (c : HaltCause) : Prop where
  run : t.run = .halted
  haltCause : t.haltCause = c
  ifNop : t.ifNop = true
  cycle : t.cycle = (s.cycle + 1) % 2 ^ s.cfg.ctrWidth
  pc : t.pc = s.pc
  instret : t.instret = s.instret
  fault : t.fault = s.fault
  regs : SameRegs s t
  data : SameData s t
  image : SameImage s t

/-- The fault transition with code `c` at word `w` (60_exceptions.md R214): everything else is that of `s`. -/
structure Faulted (s t : State) (c : FaultCode) (w : Word) : Prop where
  run : t.run = .halted
  haltCause : t.haltCause = .fault
  ifNop : t.ifNop = true
  cause : t.fault.cause = c
  faultPc : t.fault.pc = s.pc
  faultInstr : t.fault.instr = w
  faultCycle : t.fault.cycle = s.cycle
  pc : t.pc = s.pc
  instret : t.instret = s.instret
  cycle : t.cycle = s.cycle
  regs : SameRegs s t
  data : SameData s t
  image : SameImage s t

end Sys2Proof.Machine
end

