-- ==== Sys2Proof/Certificates/Slice0/Obligations.lean ====
section
/-! DEFINITION. The statements for the provers. Each docstring names the rule of spec/ it formalises; "decision D<n>"
names a choice the spec marks as its own (92_eei_decisions.md), "log entry <n>" a choice of this model. The words
`Completes`, `Retired`, `OnlyReg`, `SameRegs`, `SameData`, `SameImage`, `HaltedNormally` and `Faulted` are those of
Sys2Proof/Safety.lean. -/

open Sys2Proof Sys2Proof.Machine

/-! ### Registers and the ALU -/

/-- 10_state.md R21: index 0 reads zero in every state, and a write to it changes nothing at all. -/
def Obligations.ZeroRegisterReadsZeroAndDiscardsWrites : Prop :=
  ∀ (s : State) (v : Word), s.getReg 0#5 = 0#32 ∧ s.setReg 0#5 v = s

/-- 10_state.md section 1 (plain storage): a written register reads back, every other register is unchanged, and an
instruction whose destination is its source reads the old value. -/
def Obligations.RegisterWriteReadsBack : Prop :=
  ∀ (s : State) (i : RegIdx) (v : Word), i ≠ 0#5 →
    (s.setReg i v).getReg i = v ∧
    (∀ r, r ≠ i → (s.setReg i v).getReg r = s.getReg r) ∧
    Completes (exec (.add i i i) s) (fun t => t.getReg i = s.getReg i + s.getReg i)

/-- 60_exceptions.md section 1 (RegIndexOutOfRange), on the register-file component of log entry 8, the model's choice:
out of range a read is a fault and a write changes nothing; in range both are the core's own ports, which is that
component's part of the choice; and no cycle raises code 2 or a fault of the model. -/
def Obligations.RegisterIndexContract : Prop :=
  (∀ (s : State) (i : Nat) (v : Word), 32 ≤ i →
    s.readIndex i = .error (.regIndexOutOfRange i) ∧ s.writeIndex i v = s) ∧
  (∀ (s : State) (r : RegIdx) (v : Word),
    s.readIndex r.toNat = .ok (s.getReg r) ∧ s.writeIndex r.toNat v = s.setReg r v) ∧
  (∀ (s t : State), s.run = .running → s.haltCause = .none → step s = .next t →
    t.haltCause = .fault → t.fault.cause ≠ .regIndexOutOfRange) ∧
  (∀ (s : State) (f : Fault), step s ≠ .fault f)

/-- 40_datapath.md section 4: the ALU's five operations, exactly; sum and difference modulo 2^32 (decision D12); the
zero result of SUB is equality of the operands. -/
def Obligations.AluComputesItsTable : Prop :=
  ∀ (a b : Word),
    (alu .add a b).toNat = (a.toNat + b.toNat) % 4294967296 ∧
    (alu .sub a b).toNat = (a.toNat + 4294967296 - b.toNat) % 4294967296 ∧
    (∀ k, (alu .xor a b).getLsbD k = (a.getLsbD k ^^ b.getLsbD k)) ∧
    (∀ k, (alu .or a b).getLsbD k = (a.getLsbD k || b.getLsbD k)) ∧
    (∀ k, (alu .and a b).getLsbD k = (a.getLsbD k && b.getLsbD k)) ∧
    (zeroResult (alu .sub a b) = true ↔ a = b)

/-! ### The access primitives -/

/-- 20_memory.md section 3 (IFetch): NotFound exactly when the aligned word runs past the image, else the four image
bytes, the first most significant (the order of instruction bytes is decision D3). -/
def Obligations.FetchReadsTheAlignedWord : Prop :=
  ∀ (s : State) (a : Word),
    (s.ilen < a.toNat / 4 * 4 + 4 → s.ifetch a = none) ∧
    (a.toNat / 4 * 4 + 4 ≤ s.ilen →
      s.ifetch a = some (s.imem.get (a.toNat / 4 * 4) ++ s.imem.get (a.toNat / 4 * 4 + 1) ++
        s.imem.get (a.toNat / 4 * 4 + 2) ++ s.imem.get (a.toNat / 4 * 4 + 3)))

/-- 20_memory.md section 3 (MemRead; bound: decision D13, growth: decision D14): a read beyond DMEM_LIMIT raises; in
range it returns the aligned big-endian word, changes nothing but `dlen`, and reads zero where no byte was ever loaded
or written. -/
def Obligations.DataReadReturnsTheAlignedWord : Prop :=
  ∀ (s : State) (a : Word),
    (s.cfg.dmemLimit < a.toNat / 4 * 4 + 4 → s.memRead a = none) ∧
    (a.toNat / 4 * 4 + 4 ≤ s.cfg.dmemLimit →
      s.memRead a = some (s.dmem.get (a.toNat / 4 * 4) ++ s.dmem.get (a.toNat / 4 * 4 + 1) ++
        s.dmem.get (a.toNat / 4 * 4 + 2) ++ s.dmem.get (a.toNat / 4 * 4 + 3),
        { s with dlen := max s.dlen (a.toNat / 4 * 4 + 4) }) ∧
      ((∀ c ∈ s.dmem, c.1 < a.toNat / 4 * 4 ∨ a.toNat / 4 * 4 + 4 ≤ c.1) →
        s.memRead a = some (0#32, { s with dlen := max s.dlen (a.toNat / 4 * 4 + 4) })))

/-- 20_memory.md section 3 (MemWrite; bound: decision D13, growth: decision D14): a write beyond DMEM_LIMIT raises; in
range it overwrites the four bytes of the aligned word, most significant first, and no other byte; `dlen` grows to hold
the word; nothing else changes. -/
def Obligations.DataWriteOverwritesTheAlignedWord : Prop :=
  ∀ (s : State) (a v : Word),
    (s.cfg.dmemLimit < a.toNat / 4 * 4 + 4 → s.memWrite a v = none) ∧
    (a.toNat / 4 * 4 + 4 ≤ s.cfg.dmemLimit → ∃ t, s.memWrite a v = some t ∧
      t.dmem.get (a.toNat / 4 * 4) = v.extractLsb' 24 8 ∧
      t.dmem.get (a.toNat / 4 * 4 + 1) = v.extractLsb' 16 8 ∧
      t.dmem.get (a.toNat / 4 * 4 + 2) = v.extractLsb' 8 8 ∧
      t.dmem.get (a.toNat / 4 * 4 + 3) = v.extractLsb' 0 8 ∧
      (∀ b, b < a.toNat / 4 * 4 ∨ a.toNat / 4 * 4 + 4 ≤ b → t.dmem.get b = s.dmem.get b) ∧
      t.dlen = max s.dlen (a.toNat / 4 * 4 + 4) ∧
      t = { s with dmem := t.dmem, dlen := t.dlen })

/-- 20_memory.md section 6: a word read back from any address in the same aligned word is the word written. -/
def Obligations.StoreThenLoadReturnsTheWord : Prop :=
  ∀ (s : State) (a b v : Word), a.toNat / 4 = b.toNat / 4 → a.toNat / 4 * 4 + 4 ≤ s.cfg.dmemLimit →
    ∃ t u, s.memWrite a v = some t ∧ t.memRead b = some (v, u)

/-- 20_memory.md section 5 (program order): a store is not seen by a load of any other aligned word. -/
def Obligations.StoreLeavesOtherWordsAlone : Prop :=
  ∀ (s t : State) (a b v : Word), a.toNat / 4 ≠ b.toNat / 4 → s.memWrite a v = some t →
    (t.memRead b).map Prod.fst = (s.memRead b).map Prod.fst

/-! ### What each instruction does -/

/-- 41_r_type_arith.md R160, R161: the words of ADD and SUB decode to them, both complete in every state, write
`x[rs1] + x[rs2]` and `x[rs1] - x[rs2]` modulo 2^32 to `rd` (discarded for x0), go on at `pc + 4`, and change nothing
else. -/
def Obligations.AddAndSubComplete : Prop :=
  (∀ w : Word, w &&& 0xFE00707F#32 = 0x00000033#32 → decode w = .ok (.add (rdOf w) (rs1Of w) (rs2Of w))) ∧
  (∀ w : Word, w &&& 0xFE00707F#32 = 0x40000033#32 → decode w = .ok (.sub (rdOf w) (rs1Of w) (rs2Of w))) ∧
  (∀ (rd rs1 rs2 : RegIdx) (s : State),
    Completes (exec (.add rd rs1 rs2) s) (fun t =>
      Retired s t (s.pc + 4#32) ∧ OnlyReg s t rd (s.getReg rs1 + s.getReg rs2) ∧ SameData s t) ∧
    Completes (exec (.sub rd rs1 rs2) s) (fun t =>
      Retired s t (s.pc + 4#32) ∧ OnlyReg s t rd (s.getReg rs1 - s.getReg rs2) ∧ SameData s t))

/-- 41_r_type_arith.md (XOR, OR, AND): as for ADD; the funct3 values are decision D4, the funct7 value D5. -/
def Obligations.XorOrAndComplete : Prop :=
  (∀ w : Word, w &&& 0xFE00707F#32 = 0x00004033#32 → decode w = .ok (.xor (rdOf w) (rs1Of w) (rs2Of w))) ∧
  (∀ w : Word, w &&& 0xFE00707F#32 = 0x00006033#32 → decode w = .ok (.or (rdOf w) (rs1Of w) (rs2Of w))) ∧
  (∀ w : Word, w &&& 0xFE00707F#32 = 0x00007033#32 → decode w = .ok (.and (rdOf w) (rs1Of w) (rs2Of w))) ∧
  (∀ (rd rs1 rs2 : RegIdx) (s : State),
    Completes (exec (.xor rd rs1 rs2) s) (fun t =>
      Retired s t (s.pc + 4#32) ∧ OnlyReg s t rd (s.getReg rs1 ^^^ s.getReg rs2) ∧ SameData s t) ∧
    Completes (exec (.or rd rs1 rs2) s) (fun t =>
      Retired s t (s.pc + 4#32) ∧ OnlyReg s t rd (s.getReg rs1 ||| s.getReg rs2) ∧ SameData s t) ∧
    Completes (exec (.and rd rs1 rs2) s) (fun t =>
      Retired s t (s.pc + 4#32) ∧ OnlyReg s t rd (s.getReg rs1 &&& s.getReg rs2) ∧ SameData s t))

/-- 42_i_type_arith.md (ADDI, XORI, ORI, ANDI): the words decode to them (funct3 values: decision D4), all complete in
every state, the second operand the sign-extended immediate, and change nothing but `rd` and the bookkeeping. -/
def Obligations.ImmediateArithmeticCompletes : Prop :=
  (∀ w : Word, w &&& 0x0000707F#32 = 0x00000013#32 → decode w = .ok (.addi (rdOf w) (rs1Of w) (immIOf w))) ∧
  (∀ w : Word, w &&& 0x0000707F#32 = 0x00004013#32 → decode w = .ok (.xori (rdOf w) (rs1Of w) (immIOf w))) ∧
  (∀ w : Word, w &&& 0x0000707F#32 = 0x00006013#32 → decode w = .ok (.ori (rdOf w) (rs1Of w) (immIOf w))) ∧
  (∀ w : Word, w &&& 0x0000707F#32 = 0x00007013#32 → decode w = .ok (.andi (rdOf w) (rs1Of w) (immIOf w))) ∧
  (∀ (rd rs1 : RegIdx) (imm : BitVec 12) (s : State),
    Completes (exec (.addi rd rs1 imm) s) (fun t =>
      Retired s t (s.pc + 4#32) ∧ OnlyReg s t rd (s.getReg rs1 + imm.signExtend 32) ∧ SameData s t) ∧
    Completes (exec (.xori rd rs1 imm) s) (fun t =>
      Retired s t (s.pc + 4#32) ∧ OnlyReg s t rd (s.getReg rs1 ^^^ imm.signExtend 32) ∧ SameData s t) ∧
    Completes (exec (.ori rd rs1 imm) s) (fun t =>
      Retired s t (s.pc + 4#32) ∧ OnlyReg s t rd (s.getReg rs1 ||| imm.signExtend 32) ∧ SameData s t) ∧
    Completes (exec (.andi rd rs1 imm) s) (fun t =>
      Retired s t (s.pc + 4#32) ∧ OnlyReg s t rd (s.getReg rs1 &&& imm.signExtend 32) ∧ SameData s t))

/-- 43_load_store.md (LW; funct3: decision D6): with the aligned word below DMEM_LIMIT the load completes; `rd` takes
the big-endian word at the aligned address of `x[rs1] + imm` (old `x[rs1]`), the store grows to hold it also for x0
(decision D14), and no byte of memory and nothing else changes. -/
def Obligations.LoadWordCompletes : Prop :=
  (∀ w : Word, w &&& 0x0000707F#32 = 0x00002003#32 → decode w = .ok (.lw (rdOf w) (rs1Of w) (immIOf w))) ∧
  (∀ (rd rs1 : RegIdx) (imm : BitVec 12) (s : State) (a : Nat),
    a = (alignDown (s.getReg rs1 + imm.signExtend 32)).toNat → a + 4 ≤ s.cfg.dmemLimit →
    Completes (exec (.lw rd rs1 imm) s) (fun t =>
      Retired s t (s.pc + 4#32) ∧
      OnlyReg s t rd (s.dmem.get a ++ s.dmem.get (a + 1) ++ s.dmem.get (a + 2) ++ s.dmem.get (a + 3)) ∧
      (∀ b, t.dmem.get b = s.dmem.get b) ∧ t.dlen = max s.dlen (a + 4)))

/-- 43_load_store.md (SW; funct3: decision D7): with the aligned word below DMEM_LIMIT the store completes; the four
bytes at the aligned address of `x[rs1] + imm` become `x[rs2]`, most significant first, every byte outside them reads
as before, the store grows to hold the word (decision D14), and no register and nothing else changes. -/
def Obligations.StoreWordCompletes : Prop :=
  (∀ w : Word, w &&& 0x0000707F#32 = 0x00002023#32 → decode w = .ok (.sw (rs1Of w) (rs2Of w) (immSOf w))) ∧
  (∀ (rs1 rs2 : RegIdx) (imm : BitVec 12) (s : State) (a : Nat),
    a = (alignDown (s.getReg rs1 + imm.signExtend 32)).toNat → a + 4 ≤ s.cfg.dmemLimit →
    Completes (exec (.sw rs1 rs2 imm) s) (fun t =>
      Retired s t (s.pc + 4#32) ∧ SameRegs s t ∧
      t.dmem.get a = (s.getReg rs2).extractLsb' 24 8 ∧
      t.dmem.get (a + 1) = (s.getReg rs2).extractLsb' 16 8 ∧
      t.dmem.get (a + 2) = (s.getReg rs2).extractLsb' 8 8 ∧
      t.dmem.get (a + 3) = (s.getReg rs2).extractLsb' 0 8 ∧
      (∀ b, b < a ∨ a + 4 ≤ b → t.dmem.get b = s.dmem.get b) ∧
      t.dlen = max s.dlen (a + 4)))

/-- 60_exceptions.md sections 1 and 2 (decisions D10, D13): LW and SW whose aligned word does not lie below DMEM_LIMIT
take the fault transition with code 3 and nothing else happens, not even growth; the recorded word is the instruction's
encoding, since `exec` is not given the fetched one (log entry 7, DEDUCED). -/
def Obligations.AccessBeyondTheLimitFaults : Prop :=
  (∀ (rd rs1 : RegIdx) (imm : BitVec 12) (s : State),
    s.cfg.dmemLimit < (alignDown (s.getReg rs1 + imm.signExtend 32)).toNat + 4 →
    Completes (exec (.lw rd rs1 imm) s) (fun t =>
      Faulted s t .dataAddressOutOfRange (encode (.lw rd rs1 imm)))) ∧
  (∀ (rs1 rs2 : RegIdx) (imm : BitVec 12) (s : State),
    s.cfg.dmemLimit < (alignDown (s.getReg rs1 + imm.signExtend 32)).toNat + 4 →
    Completes (exec (.sw rs1 rs2 imm) s) (fun t =>
      Faulted s t .dataAddressOutOfRange (encode (.sw rs1 rs2 imm))))

/-- 44_branch_jump.md (BEQ, BNE; funct3: decision D4): both complete in every state; the pc goes to its own address
plus the immediate exactly when the registers are equal (BEQ) or differ (BNE), else to `pc + 4`; no register, no memory
and nothing else changes. -/
def Obligations.BranchesComplete : Prop :=
  (∀ w : Word, w &&& 0x0000707F#32 = 0x00000063#32 → decode w = .ok (.beq (rs1Of w) (rs2Of w) (immBOf w))) ∧
  (∀ w : Word, w &&& 0x0000707F#32 = 0x00001063#32 → decode w = .ok (.bne (rs1Of w) (rs2Of w) (immBOf w))) ∧
  (∀ (rs1 rs2 : RegIdx) (imm : BitVec 13) (s : State),
    Completes (exec (.beq rs1 rs2 imm) s) (fun t =>
      Retired s t (if s.getReg rs1 = s.getReg rs2 then s.pc + imm.signExtend 32 else s.pc + 4#32) ∧
      SameRegs s t ∧ SameData s t) ∧
    Completes (exec (.bne rs1 rs2 imm) s) (fun t =>
      Retired s t (if s.getReg rs1 = s.getReg rs2 then s.pc + 4#32 else s.pc + imm.signExtend 32) ∧
      SameRegs s t ∧ SameData s t))

/-- 44_branch_jump.md R192: the words of JAL decode to it with the control signals R192 lists; it completes in every
state, links `pc + 4` in `rd` (discarded for x0), goes on at `pc + imm`, and changes nothing else. -/
def Obligations.JumpAndLinkCompletes : Prop :=
  (∀ w : Word, w &&& 0x0000007F#32 = 0x0000006F#32 →
    decode w = .ok (.jal (rdOf w) (immJOf w)) ∧
    ∃ d, exOf w = some d ∧ d.isImm = true ∧ d.rdMem = false ∧ d.wrMem = false ∧ d.wrEn = true ∧ d.branch = true ∧
      d.aluOp = .add ∧ d.bcond = some .always) ∧
  (∀ (rd : RegIdx) (imm : BitVec 21) (s : State),
    Completes (exec (.jal rd imm) s) (fun t =>
      Retired s t (s.pc + imm.signExtend 32) ∧ OnlyReg s t rd (s.pc + 4#32) ∧ SameData s t))

/-- 45_halt.md R200: every word with opcode field 0x7F, bits 31:7 ignored, halts the run in the cycle that fetches it;
the pc is held, only `cycle` counts; and the instruction completes so in every state. -/
def Obligations.HaltSentinelHalts : Prop :=
  (∀ (s : State) (w : Word), s.run = .running → s.ifetch s.pc = some w → w &&& 0x0000007F#32 = 0x0000007F#32 →
    Completes (step s) (fun t => HaltedNormally s t .sentinel)) ∧
  (∀ (ignored : BitVec 25) (s : State),
    Completes (exec (.halt ignored) s) (fun t => HaltedNormally s t .sentinel))

/-- 45_halt.md R201: a running cycle whose fetch finds no word, `(pc & 0xFFFFFFFC) + 4 > ILEN`, halts the run with the
pc held; only `cycle` counts. -/
def Obligations.EndOfImageHalts : Prop :=
  ∀ s : State, s.run = .running → s.ilen < (s.pc &&& 0xFFFFFFFC#32).toNat + 4 →
    Completes (step s) (fun t => HaltedNormally s t .endOfImage)

/-- 43_load_store.md section LW, SW (round trip): SW, then LW from any effective address in the same aligned word, loads
the stored register. -/
def Obligations.StoreInstructionThenLoadInstruction : Prop :=
  ∀ (s : State) (base data base' rd : RegIdx) (imm imm' : BitVec 12),
    alignDown (s.getReg base + imm.signExtend 32) = alignDown (s.getReg base' + imm'.signExtend 32) →
    (alignDown (s.getReg base + imm.signExtend 32)).toNat + 4 ≤ s.cfg.dmemLimit →
    Completes (exec (.sw base data imm) s) (fun t =>
      Completes (exec (.lw rd base' imm') t) (fun u =>
        u.getReg rd = if rd = 0#5 then 0#32 else s.getReg data))

/-! ### The cycle -/

/-- 40_datapath.md R121: a cycle that starts Halted changes nothing, executes no fetched word, asks nothing of the data
store and leaves no trace record; and so does every number of further cycles. -/
def Obligations.HaltedCycleChangesNothing : Prop :=
  ∀ (s : State) (n : Nat), s.run = .halted →
    step s = .next s ∧ s.cycleEx = none ∧ s.dmemRequest = none ∧ s.traceRecord = none ∧
      Host.Core.run Sys2Proof.core n s = .next s

/-- 00_scope.md section 4 (one step is one cycle), 20_memory.md section 2: when the four image bytes at the aligned pc
decode to an instruction, a running step is exactly `exec` of it; nothing is added around it. -/
def Obligations.StepRunsTheDecodedInstruction : Prop :=
  ∀ (s : State) (a : Nat) (i : Instr) (rest : List Byte), s.run = .running → a = (alignDown s.pc).toNat →
    a + 4 ≤ s.ilen →
    decodeBytes [s.imem.get a, s.imem.get (a + 1), s.imem.get (a + 2), s.imem.get (a + 3)] = .ok (i, rest) →
    i.wf = true ∧ rest = [] ∧ step s = exec i s

/-- Log entry 5: a table word put where the next fetch reads it is what the next step runs, from every state. -/
def Obligations.PlacedWordRunsNext : Prop :=
  ∀ (s : State) (nbits w : Nat) (i : Instr), decodeTableWord nbits w = some i →
    step (s.withFetchWord nbits w) = exec i (s.withFetchWord nbits w)

/-- 30_encoding.md section 5, 60_exceptions.md sections 1 and 2 (decisions D5 to D10): a fetched word that matches no
row of the table takes the fault transition with code 1. -/
def Obligations.IllegalWordFaults : Prop :=
  ∀ (s : State) (w : Word), s.run = .running → s.ifetch s.pc = some w →
    (∀ r ∈ opcodeTable, w &&& r.mask ≠ r.match_) →
    Completes (step s) (fun t => Faulted s t .decodeError w)

/-- 60_exceptions.md section 2 (decision D10): a cycle that ends in a fault leaves the registers, the pc, both counters
and every byte as they were, and records the word it fetched. -/
def Obligations.FaultsArePrecise : Prop :=
  ∀ s t : State, s.run = .running → s.haltCause = .none → step s = .next t → t.haltCause = .fault →
    ∃ w c, s.ifetch s.pc = some w ∧ (c = .decodeError ∨ c = .dataAddressOutOfRange) ∧ Faulted s t c w

/-- 40_datapath.md section 1 ("The function is total"): every state has a successor; no step stops with a fault of the
model or a refusal. -/
def Obligations.EveryStepAnswersNext : Prop := ∀ s : State, ∃ t, step s = .next t

/-- 10_state.md section 2, 40_datapath.md section 8 (wrap: decision D1): how the pc advances, in full. -/
def Obligations.PcAdvances : Prop :=
  ∀ s t : State, s.run = .running → step s = .next t →
    (s.ifetch s.pc = none → t.pc = s.pc) ∧
    (t.run = .halted → t.pc = s.pc) ∧
    (∀ w, s.ifetch s.pc = some w → t.run = .running →
      t.pc =
        if opcodeOf w = 0x63#7 ∧ funct3Of w = 0b000#3 ∧ s.getReg (rs1Of w) = s.getReg (rs2Of w) ∨
            opcodeOf w = 0x63#7 ∧ funct3Of w = 0b001#3 ∧ s.getReg (rs1Of w) ≠ s.getReg (rs2Of w) then
          s.pc + (immBOf w).signExtend 32
        else if opcodeOf w = 0x6F#7 then s.pc + (immJOf w).signExtend 32
        else s.pc + 4#32)

/-- 40_datapath.md R120: the step, written per instruction, is the cycle of the pseudocode, written over the decoder's
match and mask table, the control signals and the shared blocks (Machine/Datapath.lean). -/
def Obligations.StepIsTheDatapathCycle : Prop := ∀ s : State, step s = .next s.datapathCycle

/-! ### Encoding -/

/-- 30_encoding.md section 5 (order of tests): no word matches two rows of the table. -/
def Obligations.OpcodeRowsAreDisjoint : Prop :=
  ∀ w : Word, ∀ r ∈ opcodeTable, ∀ q ∈ opcodeTable,
    w &&& r.mask = r.match_ → w &&& q.mask = q.match_ → r = q

/-- 30_encoding.md sections 4 and 5 (decisions D4 to D9): a word decodes to an instruction of a row exactly when it
matches that row's match and mask, so it is rejected exactly when it matches none. -/
def Obligations.DecoderFollowsTheOpcodeTable : Prop :=
  ∀ (w : Word) (m : Mnemonic),
    (∃ i, decode w = .ok i ∧ i.mnemonic = m) ↔ ∃ r ∈ opcodeTable, r.mnemonic = m ∧ w &&& r.mask = r.match_

/-- 30_encoding.md sections 2 to 4: every well-formed instruction is read back from its word, and from its bytes with
any bytes after them; no bit of an operand is dropped. -/
def Obligations.DecodeOfEncode : Prop :=
  ∀ (i : Instr) (rest : List Byte), i.wf = true →
    decode (encode i) = .ok i ∧ decodeBytes (encodeBytes i ++ rest) = .ok (i, rest)

/-- 30_encoding.md sections 2 to 4: what the decoder yields is well-formed and encodes to the word it came from; no bit
of the word is dropped. -/
def Obligations.EncodeOfDecode : Prop :=
  ∀ (w : Word) (i : Instr), decode w = .ok i → i.wf = true ∧ encode i = w

/-- 30_encoding.md R89, R90: every bit of the I and S immediates, sign-extended, and their range. -/
def Obligations.ImmediatesOfIAndS : Prop :=
  ∀ w : Word,
    (∀ k, k < 32 → (sext (immIOf w)).getLsbD k = if k ≤ 10 then w.getLsbD (k + 20) else w.getLsbD 31) ∧
    (∀ k, k < 32 → (sext (immSOf w)).getLsbD k =
      if k ≤ 4 then w.getLsbD (k + 7) else if k ≤ 10 then w.getLsbD (k + 20) else w.getLsbD 31) ∧
    -2048 ≤ (sext (immIOf w)).toInt ∧ (sext (immIOf w)).toInt ≤ 2047 ∧
    -2048 ≤ (sext (immSOf w)).toInt ∧ (sext (immSOf w)).toInt ≤ 2047

/-- 30_encoding.md R91, R92: every bit of the B and J immediates, sign-extended, their range, and that they are even. -/
def Obligations.ImmediatesOfBAndJ : Prop :=
  ∀ w : Word,
    (∀ k, k < 32 → (sext (immBOf w)).getLsbD k =
      if k = 0 then false else if k ≤ 4 then w.getLsbD (k + 7) else if k ≤ 10 then w.getLsbD (k + 20)
      else if k = 11 then w.getLsbD 7 else w.getLsbD 31) ∧
    (∀ k, k < 32 → (sext (immJOf w)).getLsbD k =
      if k = 0 then false else if k ≤ 10 then w.getLsbD (k + 20) else if k = 11 then w.getLsbD 20
      else if k ≤ 19 then w.getLsbD k else w.getLsbD 31) ∧
    -4096 ≤ (sext (immBOf w)).toInt ∧ (sext (immBOf w)).toInt ≤ 4094 ∧ (sext (immBOf w)).toInt % 2 = 0 ∧
    -1048576 ≤ (sext (immJOf w)).toInt ∧ (sext (immJOf w)).toInt ≤ 1048574 ∧ (sext (immJOf w)).toInt % 2 = 0

/-- 40_datapath.md section 3 (decision D22): the decoder's record for every instruction: indices, immediate and control
signals of its class; the sentinel has none. -/
def Obligations.ControlSignalsPerClass : Prop :=
  (∀ (op : AluOp) (i : Instr) (rd rs1 rs2 : RegIdx),
    (op, i) ∈ [(AluOp.add, Instr.add rd rs1 rs2), (.sub, .sub rd rs1 rs2), (.xor, .xor rd rs1 rs2),
      (.or, .or rd rs1 rs2), (.and, .and rd rs1 rs2)] →
    exOf (encode i) = some ⟨rs1, rs2, rd, 0#32, false, false, false, true, false, op, none⟩) ∧
  (∀ (op : AluOp) (i : Instr) (rd rs1 : RegIdx) (imm : BitVec 12),
    (op, i) ∈ [(AluOp.add, Instr.addi rd rs1 imm), (.xor, .xori rd rs1 imm), (.or, .ori rd rs1 imm),
      (.and, .andi rd rs1 imm)] →
    exOf (encode i) = some ⟨rs1, 0#5, rd, sext imm, true, false, false, true, false, op, none⟩) ∧
  (∀ (rd rs1 : RegIdx) (imm : BitVec 12),
    exOf (encode (.lw rd rs1 imm)) =
      some ⟨rs1, 0#5, rd, sext imm, true, true, false, true, false, .add, none⟩) ∧
  (∀ (rs1 rs2 : RegIdx) (imm : BitVec 12),
    exOf (encode (.sw rs1 rs2 imm)) =
      some ⟨rs1, rs2, 0#5, sext imm, true, false, true, false, false, .add, none⟩) ∧
  (∀ (rs1 rs2 : RegIdx) (imm : BitVec 13), imm.getLsbD 0 = false →
    exOf (encode (.beq rs1 rs2 imm)) =
      some ⟨rs1, rs2, 0#5, sext imm, false, false, false, false, true, .sub, some .eq⟩ ∧
    exOf (encode (.bne rs1 rs2 imm)) =
      some ⟨rs1, rs2, 0#5, sext imm, false, false, false, false, true, .sub, some .ne⟩) ∧
  (∀ (rd : RegIdx) (imm : BitVec 21), imm.getLsbD 0 = false →
    exOf (encode (.jal rd imm)) =
      some ⟨0#5, 0#5, rd, sext imm, true, false, false, true, true, .add, some .always⟩) ∧
  (∀ ignored : BitVec 25, exOf (encode (.halt ignored)) = none)

/-- 95_test_vectors.md section 2, one word of each family written out from its encoding. -/
def Obligations.SpecWordsDecode : Prop :=
  decode 0x402081B3#32 = .ok (.sub 3#5 1#5 2#5) ∧
  decode 0xFFF34293#32 = .ok (.xori 5#5 6#5 0xFFF#12) ∧
  decode 0xFFC32283#32 = .ok (.lw 5#5 6#5 0xFFC#12) ∧
  decode 0x54532AA3#32 = .ok (.sw 6#5 5#5 0x555#12) ∧
  decode 0xFE208EE3#32 = .ok (.beq 1#5 2#5 0x1FFC#13) ∧
  decode 0xFF5FF06F#32 = .ok (.jal 0#5 0x1FFFF4#21) ∧
  decode 0x123457FF#32 = .ok (.halt 0x2468AF#25) ∧
  decode 0x0220C1B3#32 = .error (.arith 0x01#7 0b100#3) ∧
  decode 0x00000000#32 = .error (.majorOpcode 0x00#7)

/-! ### Whole-machine rules and invariants -/

/-- 40_datapath.md section 7: at most one register changes in a cycle. -/
def Obligations.AtMostOneRegisterChanges : Prop :=
  ∀ s t : State, step s = .next t → ∃ rd, ∀ r, r ≠ rd → t.getReg r = s.getReg r

/-- 20_memory.md section 5 (fetch coherence): no step changes the instruction image, so every later fetch finds what it
found before; nor does it change the parameters, which State carries by the model's choice (log entry 1). -/
def Obligations.ImageNeverChanges : Prop :=
  ∀ s t : State, step s = .next t → SameImage s t ∧ ∀ a, t.ifetch a = s.ifetch a

/-- 40_datapath.md section 10: only a fetched SW changes a byte of memory, and only a byte of the aligned word at
`x[rs1] + imm_S`. -/
def Obligations.OnlyStoresChangeBytes : Prop :=
  ∀ (s t : State) (b : Nat), step s = .next t → t.dmem.get b ≠ s.dmem.get b →
    ∃ w a, s.run = .running ∧ s.ifetch s.pc = some w ∧ w &&& 0x0000707F#32 = 0x00002023#32 ∧
      a = (alignDown (s.getReg (rs1Of w) + (immSOf w).signExtend 32)).toNat ∧ a ≤ b ∧ b < a + 4

/-- 20_memory.md section 3 (growth, decision D14): the data store never shrinks, and only a fetched LW or SW grows it. -/
def Obligations.DataStoreNeverShrinks : Prop :=
  ∀ s t : State, step s = .next t →
    s.dlen ≤ t.dlen ∧
    (t.dlen ≠ s.dlen → ∃ w, s.ifetch s.pc = some w ∧
      (w &&& 0x0000707F#32 = 0x00002003#32 ∨ w &&& 0x0000707F#32 = 0x00002023#32))

/-- 20_memory.md section 3, 60_exceptions.md section 1 (decision D13): with DMEM_LIMIT = 2^32 the only fault a cycle can
record is the decode error. -/
def Obligations.UnboundedStoreNeverRefusesAnAddress : Prop :=
  ∀ s t : State, s.cfg.dmemLimit = 4294967296 → s.run = .running → s.haltCause = .none → step s = .next t →
    t.haltCause = .fault → t.fault.cause = .decodeError

/-- 10_state.md section 3, 93_implementation_defined.md U9 (decisions D10, D15): no rule reads the idle flag, and none
reads the fault record, so the reset value the model chose for it (log entry 3) changes nothing. -/
def Obligations.IdleFlagAndFaultRecordAreNotRead : Prop :=
  ∀ (s t : State) (b : Bool) (f : FaultRecord), s.run = .running → s.haltCause = .none → step s = .next t →
    step { s with ifNop := b } = .next t ∧
    step { s with fault := f } = .next (if t.haltCause = .fault then t else { t with fault := f })

/-- 10_state.md section 6 (decision D2; log entries 2 to 4): the state after reset meets the invariants. -/
def Obligations.ResetMeetsTheInvariants : Prop :=
  State.reset.Inv ∧ State.reset.CountersAgree ∧ State.reset.pcEven

/-- 10_state.md section 6, 70_reset_and_hazards.md section 2 (decisions D2, D18): so does the state after any images
within R5's bounds are loaded. -/
def Obligations.LoadedStatesMeetTheInvariants : Prop :=
  ∀ (image dimage : List Byte) (cfg : Config), cfg.wf → image.length ≤ 4294967296 → dimage.length ≤ cfg.dmemLimit →
    (State.load image dimage cfg).Inv ∧ (State.load image dimage cfg).CountersAgree ∧
      (State.load image dimage cfg).pcEven

/-- 10_state.md sections 3 and 4, 20_memory.md section 3 (decisions D10, D13, D15): every step keeps the invariant: both
memories canonical, within their lengths and bounds; halt cause, idle flag and run state consistent; counters within
their width. -/
def Obligations.StepKeepsTheInvariant : Prop := ∀ s t : State, s.Inv → step s = .next t → t.Inv

/-- 40_datapath.md section 9 (decisions D10, D11): every step keeps the count: as many cycles as instructions while
running and after a fault, one cycle more after a normal halt. -/
def Obligations.StepKeepsTheCount : Prop := ∀ s t : State, s.CountersAgree → step s = .next t → t.CountersAgree

/-- 10_state.md section 2, 30_encoding.md section 3: every step keeps the pc even; it need not stay a multiple of 4. -/
def Obligations.StepKeepsThePcEven : Prop := ∀ s t : State, s.pcEven → step s = .next t → t.pcEven

/-! ### Reset, loader and host interface -/

/-- 70_reset_and_hazards.md section 1 (decision D2): a clock edge with `rst` asserted gives every piece of state its
reset value, reloads the data image padded with zeros, and leaves the instruction image. -/
def Obligations.ResetSetsEveryPieceOfState : Prop :=
  ∀ (s t : State) (dimage : List Byte), t = s.applyReset dimage →
    (∀ r, t.getReg r = 0#32) ∧ t.pc = 0#32 ∧ t.run = .running ∧ t.haltCause = .none ∧ t.ifNop = false ∧
    t.cycle = 0 ∧ t.instret = 0 ∧ t.dlen = dimage.length ∧
    (∀ k (h : k < dimage.length), t.dmem.get k = dimage[k]) ∧ (∀ k, dimage.length ≤ k → t.dmem.get k = 0#8) ∧
    SameImage s t

/-- 70_reset_and_hazards.md section 2 (decisions D3, D18): word `n` of a loaded image, four bytes a word and most
significant byte first, is what a fetch at byte address `4 n` finds. -/
def Obligations.LoadedWordIsFetched : Prop :=
  ∀ (words : List Word) (dimage : List Byte) (cfg : Config) (n : Nat) (h : n < words.length),
    4 * words.length ≤ 4294967296 →
    (State.load (words.flatMap bytesOfWord) dimage cfg).ifetch (BitVec.ofNat 32 (4 * n)) = some words[n]

/-- 70_reset_and_hazards.md section 2 (decision D18): a byte written as eight digits is read back from them. -/
def Obligations.ImageLineReadsBack : Prop :=
  ∀ b : Byte, (lineOfByte b).length = 8 ∧ byteOfLine (lineOfByte b) = some b

/-- 40_datapath.md section 9, 10_state.md section 7 (decision D15): the trace record of a running cycle carries the
cycle's own number and the registers, pc and idle flag after it; register 0 shows zero. -/
def Obligations.TraceShowsTheStateAfterTheCycle : Prop :=
  ∀ s t : State, s.run = .running → step s = .next t →
    ∃ r, s.traceRecord = some r ∧ r.number = s.cycle ∧ r.after.pc = t.pc ∧ r.after.nop = t.ifNop ∧
      r.after.halted = decide (t.run = .halted) ∧ r.after.cause = t.haltCause ∧
      r.after.cycle = t.cycle ∧ r.after.instret = t.instret ∧
      (∀ k : Fin 32, r.after.regs[k] = t.getReg (BitVec.ofNat 5 k.val)) ∧ r.after.regs[0] = 0#32

/-- 40_datapath.md section 9, 70_reset_and_hazards.md section 5 (decisions D11, D21): after a normal halt of a run of
`k` instructions, with no counter wrapped, `cycle` is `k + 1`, CPI is `(k + 1) / k` and IPC `k / (k + 1)`, and both are
0 when `k` is 0. -/
def Obligations.NormalRunSummary : Prop :=
  ∀ s : State, s.CountersAgree → s.endedNormally → s.instret + 1 < 2 ^ s.cfg.ctrWidth →
    s.cycle = s.instret + 1 ∧
    s.cpi = (if s.instret = 0 then 0 else ((s.instret : Rat) + 1) / (s.instret : Rat)) ∧
    s.ipc = (s.instret : Rat) / ((s.instret : Rat) + 1)

/-- 10_state.md section 7, 70_reset_and_hazards.md section 3: the dump has `dlen` bytes, byte `k` that of address `k`. -/
def Obligations.DumpListsTheDataStore : Prop :=
  ∀ s : State, s.dump.length = s.dlen ∧ ∀ k (h : k < s.dump.length), s.dump[k] = s.dmem.get k

/-- 40_datapath.md section 6, 20_memory.md section 3 (decisions D13, D16): the access the data store performs in a
running cycle is LW's or SW's at the unmodified effective address when it is in range, and no other instruction's. -/
def Obligations.DataPortCarriesTheAccess : Prop :=
  ∀ (s : State) (w : Word) (i : Instr), s.run = .running → s.ifetch s.pc = some w → decode w = .ok i →
    s.dmemRequest =
      match i with
      | .lw _ rs1 imm =>
        if (alignDown (s.effAddr rs1 imm)).toNat + 4 ≤ s.cfg.dmemLimit then some (.read (s.effAddr rs1 imm)) else none
      | .sw rs1 rs2 imm =>
        if (alignDown (s.effAddr rs1 imm)).toNat + 4 ≤ s.cfg.dmemLimit then
          some (.write (s.effAddr rs1 imm) (s.getReg rs2))
        else none
      | _ => none

/-- 10_state.md section 7, 40_datapath.md sections 3 and 4 (decisions D16, D22): the data port carries `MEM.alu_result`,
`MEM.rd_mem`, `MEM.wr_mem` and `MEM.store_data` of every instruction a running cycle executes, in range or not; the
strobes are 0 in a cycle that executes none. The store data of an instruction without rs2 is x0's and the wires have no
value in a cycle that executes none, both the model's choice (log entry 10). `dmem_rdata` is the aligned word at the
port's address when that is in range (decision D13). -/
def Obligations.DataPortOfEveryCycle : Prop :=
  (∀ (s : State) (w : Word) (i : Instr), s.run = .running → s.ifetch s.pc = some w → decode w = .ok i →
    s.dataPort =
      match i with
      | .add _ rs1 rs2 => ⟨some (s.getReg rs1 + s.getReg rs2), false, false, some (s.getReg rs2)⟩
      | .sub _ rs1 rs2 => ⟨some (s.getReg rs1 - s.getReg rs2), false, false, some (s.getReg rs2)⟩
      | .xor _ rs1 rs2 => ⟨some (s.getReg rs1 ^^^ s.getReg rs2), false, false, some (s.getReg rs2)⟩
      | .or _ rs1 rs2 => ⟨some (s.getReg rs1 ||| s.getReg rs2), false, false, some (s.getReg rs2)⟩
      | .and _ rs1 rs2 => ⟨some (s.getReg rs1 &&& s.getReg rs2), false, false, some (s.getReg rs2)⟩
      | .addi _ rs1 imm => ⟨some (s.getReg rs1 + imm.signExtend 32), false, false, some 0#32⟩
      | .xori _ rs1 imm => ⟨some (s.getReg rs1 ^^^ imm.signExtend 32), false, false, some 0#32⟩
      | .ori _ rs1 imm => ⟨some (s.getReg rs1 ||| imm.signExtend 32), false, false, some 0#32⟩
      | .andi _ rs1 imm => ⟨some (s.getReg rs1 &&& imm.signExtend 32), false, false, some 0#32⟩
      | .lw _ rs1 imm => ⟨some (s.getReg rs1 + imm.signExtend 32), true, false, some 0#32⟩
      | .sw rs1 rs2 imm => ⟨some (s.getReg rs1 + imm.signExtend 32), false, true, some (s.getReg rs2)⟩
      | .beq rs1 rs2 _ => ⟨some (s.getReg rs1 - s.getReg rs2), false, false, some (s.getReg rs2)⟩
      | .bne rs1 rs2 _ => ⟨some (s.getReg rs1 - s.getReg rs2), false, false, some (s.getReg rs2)⟩
      | .jal _ _ => ⟨some (s.pc + 4#32), false, false, some 0#32⟩
      | .halt _ => ⟨none, false, false, none⟩) ∧
  (∀ s : State,
    (s.run = .halted ∨ s.ifetch s.pc = none ∨
      ∃ w, s.ifetch s.pc = some w ∧ ∀ r ∈ opcodeTable, w &&& r.mask ≠ r.match_) →
    s.dataPort = ⟨none, false, false, none⟩) ∧
  (∀ (s : State) (a : Word), s.dataPort.addr = some a →
    s.dmemAnswer =
      if (alignDown a).toNat + 4 ≤ s.cfg.dmemLimit then
        some (s.dmem.get (alignDown a).toNat ++ s.dmem.get ((alignDown a).toNat + 1) ++
          s.dmem.get ((alignDown a).toNat + 2) ++ s.dmem.get ((alignDown a).toNat + 3))
      else none)
end

