-- ==== Sys2Proof/Laws/Decode.lean ====
section
/-! SUPPORT. The laws of fields: what each extractor reads from each encoded format, that the fields give the word back,
what a match and mask row says about the fields, and which class decoder a word goes to. -/

namespace Sys2Proof

open BitVec

/-! ### What the extractors read from an encoded word -/

@[simp] theorem opcodeOf_encodeR (f7 : BitVec 7) (rs2 rs1 : RegIdx) (f3 : BitVec 3) (rd : RegIdx) :
    opcodeOf (encodeR f7 rs2 rs1 f3 rd) = 0x33#7 := by
  apply BitVec.eq_of_getLsbD_eq
  intro i hi
  simp only [opcodeOf, encodeR, getLsbD_append, getLsbD_extractLsb']
  interval_cases i <;> simp

@[simp] theorem rdOf_encodeR (f7 : BitVec 7) (rs2 rs1 : RegIdx) (f3 : BitVec 3) (rd : RegIdx) :
    rdOf (encodeR f7 rs2 rs1 f3 rd) = rd := by
  apply BitVec.eq_of_getLsbD_eq
  intro i hi
  simp only [rdOf, encodeR, getLsbD_append, getLsbD_extractLsb']
  interval_cases i <;> simp

@[simp] theorem funct3Of_encodeR (f7 : BitVec 7) (rs2 rs1 : RegIdx) (f3 : BitVec 3) (rd : RegIdx) :
    funct3Of (encodeR f7 rs2 rs1 f3 rd) = f3 := by
  apply BitVec.eq_of_getLsbD_eq
  intro i hi
  simp only [funct3Of, encodeR, getLsbD_append, getLsbD_extractLsb']
  interval_cases i <;> simp

@[simp] theorem rs1Of_encodeR (f7 : BitVec 7) (rs2 rs1 : RegIdx) (f3 : BitVec 3) (rd : RegIdx) :
    rs1Of (encodeR f7 rs2 rs1 f3 rd) = rs1 := by
  apply BitVec.eq_of_getLsbD_eq
  intro i hi
  simp only [rs1Of, encodeR, getLsbD_append, getLsbD_extractLsb']
  interval_cases i <;> simp

@[simp] theorem rs2Of_encodeR (f7 : BitVec 7) (rs2 rs1 : RegIdx) (f3 : BitVec 3) (rd : RegIdx) :
    rs2Of (encodeR f7 rs2 rs1 f3 rd) = rs2 := by
  apply BitVec.eq_of_getLsbD_eq
  intro i hi
  simp only [rs2Of, encodeR, getLsbD_append, getLsbD_extractLsb']
  interval_cases i <;> simp

@[simp] theorem funct7Of_encodeR (f7 : BitVec 7) (rs2 rs1 : RegIdx) (f3 : BitVec 3) (rd : RegIdx) :
    funct7Of (encodeR f7 rs2 rs1 f3 rd) = f7 := by
  apply BitVec.eq_of_getLsbD_eq
  intro i hi
  simp only [funct7Of, encodeR, getLsbD_append, getLsbD_extractLsb']
  interval_cases i <;> simp

@[simp] theorem opcodeOf_encodeI (imm : BitVec 12) (rs1 : RegIdx) (f3 : BitVec 3) (rd : RegIdx) (op : BitVec 7) :
    opcodeOf (encodeI imm rs1 f3 rd op) = op := by
  apply BitVec.eq_of_getLsbD_eq
  intro i hi
  simp only [opcodeOf, encodeI, getLsbD_append, getLsbD_extractLsb']
  interval_cases i <;> simp

@[simp] theorem rdOf_encodeI (imm : BitVec 12) (rs1 : RegIdx) (f3 : BitVec 3) (rd : RegIdx) (op : BitVec 7) :
    rdOf (encodeI imm rs1 f3 rd op) = rd := by
  apply BitVec.eq_of_getLsbD_eq
  intro i hi
  simp only [rdOf, encodeI, getLsbD_append, getLsbD_extractLsb']
  interval_cases i <;> simp

@[simp] theorem funct3Of_encodeI (imm : BitVec 12) (rs1 : RegIdx) (f3 : BitVec 3) (rd : RegIdx) (op : BitVec 7) :
    funct3Of (encodeI imm rs1 f3 rd op) = f3 := by
  apply BitVec.eq_of_getLsbD_eq
  intro i hi
  simp only [funct3Of, encodeI, getLsbD_append, getLsbD_extractLsb']
  interval_cases i <;> simp

@[simp] theorem rs1Of_encodeI (imm : BitVec 12) (rs1 : RegIdx) (f3 : BitVec 3) (rd : RegIdx) (op : BitVec 7) :
    rs1Of (encodeI imm rs1 f3 rd op) = rs1 := by
  apply BitVec.eq_of_getLsbD_eq
  intro i hi
  simp only [rs1Of, encodeI, getLsbD_append, getLsbD_extractLsb']
  interval_cases i <;> simp

@[simp] theorem immIOf_encodeI (imm : BitVec 12) (rs1 : RegIdx) (f3 : BitVec 3) (rd : RegIdx) (op : BitVec 7) :
    immIOf (encodeI imm rs1 f3 rd op) = imm := by
  apply BitVec.eq_of_getLsbD_eq
  intro i hi
  simp only [immIOf, encodeI, getLsbD_append, getLsbD_extractLsb']
  interval_cases i <;> simp

@[simp] theorem opcodeOf_encodeS (imm : BitVec 12) (rs2 rs1 : RegIdx) (f3 : BitVec 3) :
    opcodeOf (encodeS imm rs2 rs1 f3) = 0x23#7 := by
  apply BitVec.eq_of_getLsbD_eq
  intro i hi
  simp only [opcodeOf, encodeS, getLsbD_append, getLsbD_extractLsb']
  interval_cases i <;> simp

@[simp] theorem funct3Of_encodeS (imm : BitVec 12) (rs2 rs1 : RegIdx) (f3 : BitVec 3) :
    funct3Of (encodeS imm rs2 rs1 f3) = f3 := by
  apply BitVec.eq_of_getLsbD_eq
  intro i hi
  simp only [funct3Of, encodeS, getLsbD_append, getLsbD_extractLsb']
  interval_cases i <;> simp

@[simp] theorem rs1Of_encodeS (imm : BitVec 12) (rs2 rs1 : RegIdx) (f3 : BitVec 3) :
    rs1Of (encodeS imm rs2 rs1 f3) = rs1 := by
  apply BitVec.eq_of_getLsbD_eq
  intro i hi
  simp only [rs1Of, encodeS, getLsbD_append, getLsbD_extractLsb']
  interval_cases i <;> simp

@[simp] theorem rs2Of_encodeS (imm : BitVec 12) (rs2 rs1 : RegIdx) (f3 : BitVec 3) :
    rs2Of (encodeS imm rs2 rs1 f3) = rs2 := by
  apply BitVec.eq_of_getLsbD_eq
  intro i hi
  simp only [rs2Of, encodeS, getLsbD_append, getLsbD_extractLsb']
  interval_cases i <;> simp

@[simp] theorem immSOf_encodeS (imm : BitVec 12) (rs2 rs1 : RegIdx) (f3 : BitVec 3) :
    immSOf (encodeS imm rs2 rs1 f3) = imm := by
  apply BitVec.eq_of_getLsbD_eq
  intro i hi
  simp only [immSOf, encodeS, getLsbD_append, getLsbD_extractLsb']
  interval_cases i <;> simp

@[simp] theorem opcodeOf_encodeB (imm : BitVec 13) (rs2 rs1 : RegIdx) (f3 : BitVec 3) :
    opcodeOf (encodeB imm rs2 rs1 f3) = 0x63#7 := by
  apply BitVec.eq_of_getLsbD_eq
  intro i hi
  simp only [opcodeOf, encodeB, getLsbD_append, getLsbD_extractLsb']
  interval_cases i <;> simp

@[simp] theorem funct3Of_encodeB (imm : BitVec 13) (rs2 rs1 : RegIdx) (f3 : BitVec 3) :
    funct3Of (encodeB imm rs2 rs1 f3) = f3 := by
  apply BitVec.eq_of_getLsbD_eq
  intro i hi
  simp only [funct3Of, encodeB, getLsbD_append, getLsbD_extractLsb']
  interval_cases i <;> simp

@[simp] theorem rs1Of_encodeB (imm : BitVec 13) (rs2 rs1 : RegIdx) (f3 : BitVec 3) :
    rs1Of (encodeB imm rs2 rs1 f3) = rs1 := by
  apply BitVec.eq_of_getLsbD_eq
  intro i hi
  simp only [rs1Of, encodeB, getLsbD_append, getLsbD_extractLsb']
  interval_cases i <;> simp

@[simp] theorem rs2Of_encodeB (imm : BitVec 13) (rs2 rs1 : RegIdx) (f3 : BitVec 3) :
    rs2Of (encodeB imm rs2 rs1 f3) = rs2 := by
  apply BitVec.eq_of_getLsbD_eq
  intro i hi
  simp only [rs2Of, encodeB, getLsbD_append, getLsbD_extractLsb']
  interval_cases i <;> simp

@[simp] theorem opcodeOf_encodeJ (imm : BitVec 21) (rd : RegIdx) :
    opcodeOf (encodeJ imm rd) = 0x6F#7 := by
  apply BitVec.eq_of_getLsbD_eq
  intro i hi
  simp only [opcodeOf, encodeJ, getLsbD_append, getLsbD_extractLsb']
  interval_cases i <;> simp

@[simp] theorem rdOf_encodeJ (imm : BitVec 21) (rd : RegIdx) :
    rdOf (encodeJ imm rd) = rd := by
  apply BitVec.eq_of_getLsbD_eq
  intro i hi
  simp only [rdOf, encodeJ, getLsbD_append, getLsbD_extractLsb']
  interval_cases i <;> simp

@[simp] theorem immBOf_encodeB (imm : BitVec 13) (rs2 rs1 : RegIdx) (f3 : BitVec 3) (h : imm.getLsbD 0 = false) :
    immBOf (encodeB imm rs2 rs1 f3) = imm := by
  apply BitVec.eq_of_getLsbD_eq
  intro i hi
  simp only [immBOf, encodeB, getLsbD_append, getLsbD_extractLsb']
  interval_cases i <;> first | (simp; done) | simpa using h

@[simp] theorem immJOf_encodeJ (imm : BitVec 21) (rd : RegIdx) (h : imm.getLsbD 0 = false) :
    immJOf (encodeJ imm rd) = imm := by
  apply BitVec.eq_of_getLsbD_eq
  intro i hi
  simp only [immJOf, encodeJ, getLsbD_append, getLsbD_extractLsb']
  interval_cases i <;> first | (simp; done) | simpa using h

@[simp] theorem opcodeOf_halt (ignored : BitVec 25) :
    opcodeOf (ignored ++ 0x7F#7) = 0x7F#7 := by
  apply BitVec.eq_of_getLsbD_eq
  intro i hi
  simp only [opcodeOf, getLsbD_append, getLsbD_extractLsb']
  interval_cases i <;> simp

@[simp] theorem ignoredOf_halt (ignored : BitVec 25) :
    ignoredOf (ignored ++ 0x7F#7) = ignored := by
  apply BitVec.eq_of_getLsbD_eq
  intro i hi
  simp only [ignoredOf, getLsbD_append, getLsbD_extractLsb']
  interval_cases i <;> simp

/-- The B immediate is even (R91). -/
theorem immBOf_even (w : Word) : (immBOf w).getLsbD 0 = false := by
  simp only [immBOf, getLsbD_append]
  simp

/-- The J immediate is even (R92). -/
theorem immJOf_even (w : Word) : (immJOf w).getLsbD 0 = false := by
  simp only [immJOf, getLsbD_append]
  simp

/-! ### The fields of a word give the word back -/

theorem encodeR_fields (w : Word) (h : opcodeOf w = 0x33#7) : encodeR (funct7Of w) (rs2Of w) (rs1Of w) (funct3Of w) (rdOf w) = w := by
  rw [encodeR, ← h]
  apply BitVec.eq_of_getLsbD_eq
  intro i hi
  simp only [funct7Of, rs2Of, rs1Of, funct3Of, rdOf, opcodeOf, getLsbD_append, getLsbD_extractLsb']
  interval_cases i <;> simp

theorem encodeI_fields (w : Word) : encodeI (immIOf w) (rs1Of w) (funct3Of w) (rdOf w) (opcodeOf w) = w := by
  apply BitVec.eq_of_getLsbD_eq
  intro i hi
  simp only [encodeI, immIOf, rs1Of, funct3Of, rdOf, opcodeOf, getLsbD_append, getLsbD_extractLsb']
  interval_cases i <;> simp

theorem encodeS_fields (w : Word) (h : opcodeOf w = 0x23#7) : encodeS (immSOf w) (rs2Of w) (rs1Of w) (funct3Of w) = w := by
  rw [encodeS, ← h]
  apply BitVec.eq_of_getLsbD_eq
  intro i hi
  simp only [immSOf, rs2Of, rs1Of, funct3Of, opcodeOf, getLsbD_append, getLsbD_extractLsb']
  interval_cases i <;> simp

theorem encodeB_fields (w : Word) (h : opcodeOf w = 0x63#7) : encodeB (immBOf w) (rs2Of w) (rs1Of w) (funct3Of w) = w := by
  rw [encodeB, ← h]
  apply BitVec.eq_of_getLsbD_eq
  intro i hi
  simp only [immBOf, rs2Of, rs1Of, funct3Of, opcodeOf, getLsbD_append, getLsbD_extractLsb']
  interval_cases i <;> simp

theorem encodeJ_fields (w : Word) (h : opcodeOf w = 0x6F#7) : encodeJ (immJOf w) (rdOf w) = w := by
  rw [encodeJ, ← h]
  apply BitVec.eq_of_getLsbD_eq
  intro i hi
  simp only [immJOf, rdOf, opcodeOf, getLsbD_append, getLsbD_extractLsb']
  interval_cases i <;> simp

theorem encodeHalt_fields (w : Word) (h : opcodeOf w = 0x7F#7) : (ignoredOf w ++ 0x7F#7 : Word) = w := by
  rw [← h]
  apply BitVec.eq_of_getLsbD_eq
  intro i hi
  simp only [ignoredOf, opcodeOf, getLsbD_append, getLsbD_extractLsb']
  interval_cases i <;> simp

/-! ### What a match and mask row says -/

theorem maskR_iff (w : Word) (f7 : BitVec 7) (f3 : BitVec 3) (op : BitVec 7) :
    w &&& 0xFE00707F#32 = (f7 ++ 0#10 ++ f3 ++ 0#5 ++ op : Word) ↔ opcodeOf w = op ∧ funct3Of w = f3 ∧ funct7Of w = f7 := by
  constructor
  · intro h
    have bit := fun i => congrArg (fun v : Word => v.getLsbD i) h
    simp only [getLsbD_and, getLsbD_append] at bit
    refine ⟨?_, ?_, ?_⟩
    · apply BitVec.eq_of_getLsbD_eq
      intro i hi
      simp only [opcodeOf, getLsbD_extractLsb', hi, decide_true, Bool.true_and]
      have b := bit (0 + i)
      interval_cases i <;> simpa using b
    · apply BitVec.eq_of_getLsbD_eq
      intro i hi
      simp only [funct3Of, getLsbD_extractLsb', hi, decide_true, Bool.true_and]
      have b := bit (12 + i)
      interval_cases i <;> simpa using b
    · apply BitVec.eq_of_getLsbD_eq
      intro i hi
      simp only [funct7Of, getLsbD_extractLsb', hi, decide_true, Bool.true_and]
      have b := bit (25 + i)
      interval_cases i <;> simpa using b
  · rintro ⟨rfl, rfl, rfl⟩
    apply BitVec.eq_of_getLsbD_eq
    intro i hi
    simp only [opcodeOf, funct3Of, funct7Of, getLsbD_and, getLsbD_append, getLsbD_extractLsb']
    interval_cases i <;> simp

theorem maskI_iff (w : Word) (f3 : BitVec 3) (op : BitVec 7) :
    w &&& 0x0000707F#32 = (0#17 ++ f3 ++ 0#5 ++ op : Word) ↔ opcodeOf w = op ∧ funct3Of w = f3 := by
  constructor
  · intro h
    have bit := fun i => congrArg (fun v : Word => v.getLsbD i) h
    simp only [getLsbD_and, getLsbD_append] at bit
    refine ⟨?_, ?_⟩
    · apply BitVec.eq_of_getLsbD_eq
      intro i hi
      simp only [opcodeOf, getLsbD_extractLsb', hi, decide_true, Bool.true_and]
      have b := bit (0 + i)
      interval_cases i <;> simpa using b
    · apply BitVec.eq_of_getLsbD_eq
      intro i hi
      simp only [funct3Of, getLsbD_extractLsb', hi, decide_true, Bool.true_and]
      have b := bit (12 + i)
      interval_cases i <;> simpa using b
  · rintro ⟨rfl, rfl⟩
    apply BitVec.eq_of_getLsbD_eq
    intro i hi
    simp only [opcodeOf, funct3Of, getLsbD_and, getLsbD_append, getLsbD_extractLsb']
    interval_cases i <;> simp

theorem maskJ_iff (w : Word) (op : BitVec 7) :
    w &&& 0x0000007F#32 = (0#25 ++ op : Word) ↔ opcodeOf w = op := by
  constructor
  · intro h
    have bit := fun i => congrArg (fun v : Word => v.getLsbD i) h
    simp only [getLsbD_and, getLsbD_append] at bit
    apply BitVec.eq_of_getLsbD_eq
    intro i hi
    simp only [opcodeOf, getLsbD_extractLsb', hi, decide_true, Bool.true_and]
    have b := bit (0 + i)
    interval_cases i <;> simpa using b
  · rintro rfl
    apply BitVec.eq_of_getLsbD_eq
    intro i hi
    simp only [opcodeOf, getLsbD_and, getLsbD_append, getLsbD_extractLsb']
    interval_cases i <;> simp

/-- A row of the R format, its match given as a word. -/
theorem row_R {w : Word} (f7 : BitVec 7) (f3 : BitVec 3) (op : BitVec 7) {c : Word}
    (hc : c = (f7 ++ 0#10 ++ f3 ++ 0#5 ++ op : Word)) :
    w &&& 0xFE00707F#32 = c ↔ opcodeOf w = op ∧ funct3Of w = f3 ∧ funct7Of w = f7 := by
  rw [hc]; exact maskR_iff ..

/-- A row of the I, S or B format. -/
theorem row_I {w : Word} (f3 : BitVec 3) (op : BitVec 7) {c : Word} (hc : c = (0#17 ++ f3 ++ 0#5 ++ op : Word)) :
    w &&& 0x0000707F#32 = c ↔ opcodeOf w = op ∧ funct3Of w = f3 := by
  rw [hc]; exact maskI_iff ..

/-- A row keyed on the opcode alone. -/
theorem row_J {w : Word} (op : BitVec 7) {c : Word} (hc : c = (0#25 ++ op : Word)) :
    w &&& 0x0000007F#32 = c ↔ opcodeOf w = op := by
  rw [hc]; exact maskJ_iff ..

/-! ### Which class decoder a word goes to (R93) -/

theorem decode_halt {w : Word} (h : opcodeOf w = 0x7F#7) : decode w = .ok (.halt (ignoredOf w)) := if_pos h

theorem decode_arith {w : Word} (h : opcodeOf w = 0x33#7) : decode w = decodeArith w := by
  simp only [decode, h]
  rfl

theorem decode_arithImm {w : Word} (h : opcodeOf w = 0x13#7) : decode w = decodeArithImm w := by
  simp only [decode, h]
  rfl

theorem decode_load {w : Word} (h : opcodeOf w = 0x03#7) : decode w = decodeLoad w := by
  simp only [decode, h]
  rfl

theorem decode_store {w : Word} (h : opcodeOf w = 0x23#7) : decode w = decodeStore w := by
  simp only [decode, h]
  rfl

theorem decode_branch {w : Word} (h : opcodeOf w = 0x63#7) : decode w = decodeBranch w := by
  simp only [decode, h]
  rfl

theorem decode_jump {w : Word} (h : opcodeOf w = 0x6F#7) : decode w = .ok (.jal (rdOf w) (immJOf w)) := by
  simp only [decode, h]
  rfl

end Sys2Proof
end

