-- ==== Sys2Proof/Laws/Flags.lean ====
section
/-! SUPPORT. The zero result of a subtraction is equality, and what the branch conditions test. -/

namespace Sys2Proof.Machine

/-- `ALU(SUB, a, b) == 0` holds exactly when `a == b` (40_datapath.md R129). -/
theorem zeroResult_sub_iff (a b : Word) : zeroResult (a - b) = true ↔ a = b := by
  simp only [zeroResult, beq_iff_eq]
  exact BitVec.sub_eq_iff_eq_add.trans (by simp)

/-- BEQ's condition (44_branch_jump.md R190). -/
theorem condHolds_eq_iff (a b : Word) : condHolds .eq (alu .sub a b) = true ↔ a = b := zeroResult_sub_iff a b

/-- BNE's condition (44_branch_jump.md R191). -/
theorem condHolds_ne_iff (a b : Word) : condHolds .ne (alu .sub a b) = true ↔ a ≠ b := by
  simp only [condHolds, alu, Bool.not_eq_true', ← Bool.not_eq_true, ne_eq, zeroResult_sub_iff]

end Sys2Proof.Machine
end

