-- ==== Sys2Proof/Laws/State.lean ====
section
/-! SUPPORT. One lemma per field per update of the state, true by unfolding, so that no proof unfolds a record update;
and what a register reads after each update. -/

namespace Sys2Proof.Machine

/-! ### retire -/

@[simp] theorem retire_x (s : State) (n : Word) : (s.retire n).x = s.x := rfl
@[simp] theorem retire_pc (s : State) (n : Word) : (s.retire n).pc = n := rfl
@[simp] theorem retire_run (s : State) (n : Word) : (s.retire n).run = s.run := rfl
@[simp] theorem retire_haltCause (s : State) (n : Word) : (s.retire n).haltCause = s.haltCause := rfl
@[simp] theorem retire_ifNop (s : State) (n : Word) : (s.retire n).ifNop = false := rfl
@[simp] theorem retire_cycle (s : State) (n : Word) : (s.retire n).cycle = s.countUp s.cycle := rfl
@[simp] theorem retire_instret (s : State) (n : Word) : (s.retire n).instret = s.countUp s.instret := rfl
@[simp] theorem retire_fault (s : State) (n : Word) : (s.retire n).fault = s.fault := rfl
@[simp] theorem retire_dmem (s : State) (n : Word) : (s.retire n).dmem = s.dmem := rfl
@[simp] theorem retire_dlen (s : State) (n : Word) : (s.retire n).dlen = s.dlen := rfl
@[simp] theorem retire_imem (s : State) (n : Word) : (s.retire n).imem = s.imem := rfl
@[simp] theorem retire_ilen (s : State) (n : Word) : (s.retire n).ilen = s.ilen := rfl
@[simp] theorem retire_cfg (s : State) (n : Word) : (s.retire n).cfg = s.cfg := rfl
@[simp] theorem retire_getReg (s : State) (n : Word) (r : RegIdx) : (s.retire n).getReg r = s.getReg r := rfl

/-! ### haltNormally -/

@[simp] theorem haltNormally_x (s : State) (c : HaltCause) : (s.haltNormally c).x = s.x := rfl
@[simp] theorem haltNormally_pc (s : State) (c : HaltCause) : (s.haltNormally c).pc = s.pc := rfl
@[simp] theorem haltNormally_run (s : State) (c : HaltCause) : (s.haltNormally c).run = .halted := rfl
@[simp] theorem haltNormally_haltCause (s : State) (c : HaltCause) : (s.haltNormally c).haltCause = c := rfl
@[simp] theorem haltNormally_ifNop (s : State) (c : HaltCause) : (s.haltNormally c).ifNop = true := rfl
@[simp] theorem haltNormally_cycle (s : State) (c : HaltCause) : (s.haltNormally c).cycle = s.countUp s.cycle := rfl
@[simp] theorem haltNormally_instret (s : State) (c : HaltCause) : (s.haltNormally c).instret = s.instret := rfl
@[simp] theorem haltNormally_fault (s : State) (c : HaltCause) : (s.haltNormally c).fault = s.fault := rfl
@[simp] theorem haltNormally_dmem (s : State) (c : HaltCause) : (s.haltNormally c).dmem = s.dmem := rfl
@[simp] theorem haltNormally_dlen (s : State) (c : HaltCause) : (s.haltNormally c).dlen = s.dlen := rfl
@[simp] theorem haltNormally_imem (s : State) (c : HaltCause) : (s.haltNormally c).imem = s.imem := rfl
@[simp] theorem haltNormally_ilen (s : State) (c : HaltCause) : (s.haltNormally c).ilen = s.ilen := rfl
@[simp] theorem haltNormally_cfg (s : State) (c : HaltCause) : (s.haltNormally c).cfg = s.cfg := rfl
@[simp] theorem haltNormally_getReg (s : State) (c : HaltCause) (r : RegIdx) : (s.haltNormally c).getReg r = s.getReg r := rfl

/-! ### takeFault -/

@[simp] theorem takeFault_x (s : State) (c : FaultCode) (w : Word) : (s.takeFault c w).x = s.x := rfl
@[simp] theorem takeFault_pc (s : State) (c : FaultCode) (w : Word) : (s.takeFault c w).pc = s.pc := rfl
@[simp] theorem takeFault_run (s : State) (c : FaultCode) (w : Word) : (s.takeFault c w).run = .halted := rfl
@[simp] theorem takeFault_haltCause (s : State) (c : FaultCode) (w : Word) : (s.takeFault c w).haltCause = .fault := rfl
@[simp] theorem takeFault_ifNop (s : State) (c : FaultCode) (w : Word) : (s.takeFault c w).ifNop = true := rfl
@[simp] theorem takeFault_cycle (s : State) (c : FaultCode) (w : Word) : (s.takeFault c w).cycle = s.cycle := rfl
@[simp] theorem takeFault_instret (s : State) (c : FaultCode) (w : Word) : (s.takeFault c w).instret = s.instret := rfl
@[simp] theorem takeFault_fault (s : State) (c : FaultCode) (w : Word) : (s.takeFault c w).fault = ⟨c, s.pc, w, s.cycle⟩ := rfl
@[simp] theorem takeFault_dmem (s : State) (c : FaultCode) (w : Word) : (s.takeFault c w).dmem = s.dmem := rfl
@[simp] theorem takeFault_dlen (s : State) (c : FaultCode) (w : Word) : (s.takeFault c w).dlen = s.dlen := rfl
@[simp] theorem takeFault_imem (s : State) (c : FaultCode) (w : Word) : (s.takeFault c w).imem = s.imem := rfl
@[simp] theorem takeFault_ilen (s : State) (c : FaultCode) (w : Word) : (s.takeFault c w).ilen = s.ilen := rfl
@[simp] theorem takeFault_cfg (s : State) (c : FaultCode) (w : Word) : (s.takeFault c w).cfg = s.cfg := rfl
@[simp] theorem takeFault_getReg (s : State) (c : FaultCode) (w : Word) (r : RegIdx) : (s.takeFault c w).getReg r = s.getReg r := rfl

/-! ### grow -/

@[simp] theorem grow_x (s : State) (a : Word) : (s.grow a).x = s.x := rfl
@[simp] theorem grow_pc (s : State) (a : Word) : (s.grow a).pc = s.pc := rfl
@[simp] theorem grow_run (s : State) (a : Word) : (s.grow a).run = s.run := rfl
@[simp] theorem grow_haltCause (s : State) (a : Word) : (s.grow a).haltCause = s.haltCause := rfl
@[simp] theorem grow_ifNop (s : State) (a : Word) : (s.grow a).ifNop = s.ifNop := rfl
@[simp] theorem grow_cycle (s : State) (a : Word) : (s.grow a).cycle = s.cycle := rfl
@[simp] theorem grow_instret (s : State) (a : Word) : (s.grow a).instret = s.instret := rfl
@[simp] theorem grow_fault (s : State) (a : Word) : (s.grow a).fault = s.fault := rfl
@[simp] theorem grow_dmem (s : State) (a : Word) : (s.grow a).dmem = s.dmem := rfl
@[simp] theorem grow_dlen (s : State) (a : Word) : (s.grow a).dlen = max s.dlen ((alignDown a).toNat + 4) := rfl
@[simp] theorem grow_imem (s : State) (a : Word) : (s.grow a).imem = s.imem := rfl
@[simp] theorem grow_ilen (s : State) (a : Word) : (s.grow a).ilen = s.ilen := rfl
@[simp] theorem grow_cfg (s : State) (a : Word) : (s.grow a).cfg = s.cfg := rfl
@[simp] theorem grow_getReg (s : State) (a : Word) (r : RegIdx) : (s.grow a).getReg r = s.getReg r := rfl

/-! ### storeWord -/

@[simp] theorem storeWord_x (s : State) (a v : Word) : (s.storeWord a v).x = s.x := rfl
@[simp] theorem storeWord_pc (s : State) (a v : Word) : (s.storeWord a v).pc = s.pc := rfl
@[simp] theorem storeWord_run (s : State) (a v : Word) : (s.storeWord a v).run = s.run := rfl
@[simp] theorem storeWord_haltCause (s : State) (a v : Word) : (s.storeWord a v).haltCause = s.haltCause := rfl
@[simp] theorem storeWord_ifNop (s : State) (a v : Word) : (s.storeWord a v).ifNop = s.ifNop := rfl
@[simp] theorem storeWord_cycle (s : State) (a v : Word) : (s.storeWord a v).cycle = s.cycle := rfl
@[simp] theorem storeWord_instret (s : State) (a v : Word) : (s.storeWord a v).instret = s.instret := rfl
@[simp] theorem storeWord_fault (s : State) (a v : Word) : (s.storeWord a v).fault = s.fault := rfl
@[simp] theorem storeWord_dmem (s : State) (a v : Word) : (s.storeWord a v).dmem = s.dmem.putWord (alignDown a).toNat v := rfl
@[simp] theorem storeWord_dlen (s : State) (a v : Word) : (s.storeWord a v).dlen = max s.dlen ((alignDown a).toNat + 4) := rfl
@[simp] theorem storeWord_imem (s : State) (a v : Word) : (s.storeWord a v).imem = s.imem := rfl
@[simp] theorem storeWord_ilen (s : State) (a v : Word) : (s.storeWord a v).ilen = s.ilen := rfl
@[simp] theorem storeWord_cfg (s : State) (a v : Word) : (s.storeWord a v).cfg = s.cfg := rfl
@[simp] theorem storeWord_getReg (s : State) (a v : Word) (r : RegIdx) : (s.storeWord a v).getReg r = s.getReg r := rfl

/-! ### placeWord -/

@[simp] theorem placeWord_x (s : State) (a w : Word) : (s.placeWord a w).x = s.x := rfl
@[simp] theorem placeWord_pc (s : State) (a w : Word) : (s.placeWord a w).pc = s.pc := rfl
@[simp] theorem placeWord_run (s : State) (a w : Word) : (s.placeWord a w).run = s.run := rfl
@[simp] theorem placeWord_haltCause (s : State) (a w : Word) : (s.placeWord a w).haltCause = s.haltCause := rfl
@[simp] theorem placeWord_ifNop (s : State) (a w : Word) : (s.placeWord a w).ifNop = s.ifNop := rfl
@[simp] theorem placeWord_cycle (s : State) (a w : Word) : (s.placeWord a w).cycle = s.cycle := rfl
@[simp] theorem placeWord_instret (s : State) (a w : Word) : (s.placeWord a w).instret = s.instret := rfl
@[simp] theorem placeWord_fault (s : State) (a w : Word) : (s.placeWord a w).fault = s.fault := rfl
@[simp] theorem placeWord_dmem (s : State) (a w : Word) : (s.placeWord a w).dmem = s.dmem := rfl
@[simp] theorem placeWord_dlen (s : State) (a w : Word) : (s.placeWord a w).dlen = s.dlen := rfl
@[simp] theorem placeWord_imem (s : State) (a w : Word) : (s.placeWord a w).imem = s.imem.putWord (alignDown a).toNat w := rfl
@[simp] theorem placeWord_ilen (s : State) (a w : Word) : (s.placeWord a w).ilen = max s.ilen ((alignDown a).toNat + 4) := rfl
@[simp] theorem placeWord_cfg (s : State) (a w : Word) : (s.placeWord a w).cfg = s.cfg := rfl
@[simp] theorem placeWord_getReg (s : State) (a w : Word) (r : RegIdx) : (s.placeWord a w).getReg r = s.getReg r := rfl

/-! ### releaseRun -/

@[simp] theorem releaseRun_x (s : State) : (s.releaseRun).x = s.x := rfl
@[simp] theorem releaseRun_pc (s : State) : (s.releaseRun).pc = s.pc := rfl
@[simp] theorem releaseRun_run (s : State) : (s.releaseRun).run = .running := rfl
@[simp] theorem releaseRun_haltCause (s : State) : (s.releaseRun).haltCause = .none := rfl
@[simp] theorem releaseRun_ifNop (s : State) : (s.releaseRun).ifNop = false := rfl
@[simp] theorem releaseRun_cycle (s : State) : (s.releaseRun).cycle = s.cycle := rfl
@[simp] theorem releaseRun_instret (s : State) : (s.releaseRun).instret = s.instret := rfl
@[simp] theorem releaseRun_fault (s : State) : (s.releaseRun).fault = s.fault := rfl
@[simp] theorem releaseRun_dmem (s : State) : (s.releaseRun).dmem = s.dmem := rfl
@[simp] theorem releaseRun_dlen (s : State) : (s.releaseRun).dlen = s.dlen := rfl
@[simp] theorem releaseRun_imem (s : State) : (s.releaseRun).imem = s.imem := rfl
@[simp] theorem releaseRun_ilen (s : State) : (s.releaseRun).ilen = s.ilen := rfl
@[simp] theorem releaseRun_cfg (s : State) : (s.releaseRun).cfg = s.cfg := rfl
@[simp] theorem releaseRun_getReg (s : State) (r : RegIdx) : (s.releaseRun).getReg r = s.getReg r := rfl

/-! ### setReg -/

@[simp] theorem setReg_pc (s : State) (i : RegIdx) (v : Word) : (s.setReg i v).pc = s.pc := by
  unfold State.setReg; split <;> rfl
@[simp] theorem setReg_run (s : State) (i : RegIdx) (v : Word) : (s.setReg i v).run = s.run := by
  unfold State.setReg; split <;> rfl
@[simp] theorem setReg_haltCause (s : State) (i : RegIdx) (v : Word) : (s.setReg i v).haltCause = s.haltCause := by
  unfold State.setReg; split <;> rfl
@[simp] theorem setReg_ifNop (s : State) (i : RegIdx) (v : Word) : (s.setReg i v).ifNop = s.ifNop := by
  unfold State.setReg; split <;> rfl
@[simp] theorem setReg_cycle (s : State) (i : RegIdx) (v : Word) : (s.setReg i v).cycle = s.cycle := by
  unfold State.setReg; split <;> rfl
@[simp] theorem setReg_instret (s : State) (i : RegIdx) (v : Word) : (s.setReg i v).instret = s.instret := by
  unfold State.setReg; split <;> rfl
@[simp] theorem setReg_fault (s : State) (i : RegIdx) (v : Word) : (s.setReg i v).fault = s.fault := by
  unfold State.setReg; split <;> rfl
@[simp] theorem setReg_dmem (s : State) (i : RegIdx) (v : Word) : (s.setReg i v).dmem = s.dmem := by
  unfold State.setReg; split <;> rfl
@[simp] theorem setReg_dlen (s : State) (i : RegIdx) (v : Word) : (s.setReg i v).dlen = s.dlen := by
  unfold State.setReg; split <;> rfl
@[simp] theorem setReg_imem (s : State) (i : RegIdx) (v : Word) : (s.setReg i v).imem = s.imem := by
  unfold State.setReg; split <;> rfl
@[simp] theorem setReg_ilen (s : State) (i : RegIdx) (v : Word) : (s.setReg i v).ilen = s.ilen := by
  unfold State.setReg; split <;> rfl
@[simp] theorem setReg_cfg (s : State) (i : RegIdx) (v : Word) : (s.setReg i v).cfg = s.cfg := by
  unfold State.setReg; split <;> rfl

/-! ### Registers (10_state.md R21, R22) -/

@[simp] theorem getReg_zero (s : State) : s.getReg 0#5 = 0#32 := if_pos rfl

/-- Register reads depend on `x` alone. -/
theorem getReg_congr {s t : State} (h : t.x = s.x) (r : RegIdx) : t.getReg r = s.getReg r := by
  simp only [State.getReg, h]

/-- What every register reads after a write. -/
theorem getReg_setReg (s : State) (i r : RegIdx) (v : Word) :
    (s.setReg i v).getReg r = if r = i ∧ r ≠ 0#5 then v else s.getReg r := by
  unfold State.setReg
  by_cases hi : i = 0#5
  · subst hi
    rw [if_pos rfl, if_neg (fun h => h.2 h.1)]
  · rw [if_neg hi]
    by_cases hr : r = 0#5
    · subst hr
      rw [if_neg (fun h => h.2 rfl), getReg_zero, getReg_zero]
    · simp only [State.getReg, if_neg hr, Vector.getElem_set]
      have pos : ∀ k : RegIdx, k ≠ 0#5 → 0 < k.toNat := fun k hk =>
        Nat.pos_of_ne_zero (fun h => hk (BitVec.eq_of_toNat_eq (by simpa using h)))
      by_cases h : r = i
      · subst h
        simp [hr]
      · have hne : i.toNat - 1 ≠ r.toNat - 1 := fun h' =>
          h (BitVec.eq_of_toNat_eq (by have := pos i hi; have := pos r hr; omega))
        simp [h, hne]

end Sys2Proof.Machine
end

