-- ==== Sys2Proof/Laws/Memory.lean ====
section
/-! SUPPORT. The laws of memory: a read after a write, the canonical form kept by every operation, equal reads give equal
memories, and the same for words. -/

namespace Sys2Proof.Machine

/-! ### One byte -/

theorem Memory.get_insertCell (m : Memory) (a b : Nat) (v : Byte) (h : ∀ c ∈ m, c.1 ≠ a) :
    (Memory.insertCell m a v).get b = if b = a then v else m.get b := by
  induction m with
  | nil => simp [Memory.insertCell, Memory.get]
  | cons c rest ih =>
    obtain ⟨k, w⟩ := c
    have hk : k ≠ a := h (k, w) List.mem_cons_self
    have ih := ih (fun c hc => h c (List.mem_cons_of_mem _ hc))
    unfold Memory.insertCell
    split
    · simp only [Memory.get]
    · simp only [Memory.get, ih]
      by_cases hb : b = k
      · subst hb; simp [hk]
      · simp [hb]

theorem Memory.get_filter (m : Memory) (a b : Nat) :
    Memory.get (m.filter (fun c => decide (c.1 ≠ a))) b = if b = a then unlisted else m.get b := by
  induction m with
  | nil => simp [Memory.get]
  | cons c rest ih =>
    obtain ⟨k, w⟩ := c
    by_cases hk : k = a
    · subst hk
      rw [List.filter_cons_of_neg (by simp), ih]
      by_cases hb : b = k <;> simp [Memory.get, hb]
    · rw [List.filter_cons_of_pos (by simpa using hk)]
      simp only [Memory.get, ih]
      by_cases hb : b = k
      · subst hb; simp [hk]
      · simp [hb]

/-- A read after a write, at every address and for every memory. -/
theorem Memory.get_put (m : Memory) (a b : Nat) (v : Byte) :
    (m.put a v).get b = if b = a then v else m.get b := by
  unfold Memory.put
  by_cases hv : v = unlisted
  · rw [if_pos hv, Memory.get_filter, hv]
  · rw [if_neg hv, Memory.get_insertCell _ _ _ _ (fun c hc => by simpa using (List.mem_filter.mp hc).2),
      Memory.get_filter]
    by_cases hb : b = a <;> simp [hb]

/-! ### The canonical form -/

theorem Memory.mem_insertCell {m : Memory} {a : Nat} {v : Byte} {c : Host.Cell}
    (h : c ∈ Memory.insertCell m a v) : c = (a, v) ∨ c ∈ m := by
  induction m with
  | nil => simpa [Memory.insertCell] using h
  | cons d rest ih =>
    obtain ⟨k, w⟩ := d
    unfold Memory.insertCell at h
    split at h
    · simpa using h
    · rcases List.mem_cons.mp h with h | h
      · exact .inr (h ▸ List.mem_cons_self)
      · exact (ih h).imp_right (List.mem_cons_of_mem _)

theorem Memory.mem_put {m : Memory} {a : Nat} {v : Byte} {c : Host.Cell} (h : c ∈ m.put a v) : c = (a, v) ∨ c ∈ m := by
  unfold Memory.put at h
  by_cases hv : v = unlisted
  · rw [if_pos hv] at h
    exact .inr (List.mem_filter.mp h).1
  · rw [if_neg hv] at h
    exact (Memory.mem_insertCell h).imp_right (fun h => (List.mem_filter.mp h).1)

theorem Memory.sorted_insertCell {m : Memory} {a : Nat} {v : Byte} (hm : m.Pairwise (fun c d => c.1 < d.1))
    (h : ∀ c ∈ m, c.1 ≠ a) : (Memory.insertCell m a v).Pairwise (fun c d => c.1 < d.1) := by
  induction m with
  | nil => simp [Memory.insertCell]
  | cons d rest ih =>
    obtain ⟨k, w⟩ := d
    have hd := List.pairwise_cons.mp hm
    have hk : k ≠ a := h (k, w) List.mem_cons_self
    unfold Memory.insertCell
    split
    next hlt =>
      refine List.pairwise_cons.mpr ⟨fun c hc => ?_, hm⟩
      rcases List.mem_cons.mp hc with rfl | hc
      · exact hlt
      · exact Nat.lt_trans hlt (hd.1 c hc)
    next hlt =>
      refine List.pairwise_cons.mpr ⟨fun c hc => ?_, ih hd.2 (fun c hc => h c (List.mem_cons_of_mem _ hc))⟩
      rcases Memory.mem_insertCell hc with rfl | hc
      · change k < a; omega
      · exact hd.1 c hc

/-- A write keeps the canonical form. -/
theorem Memory.wf_put {m : Memory} (hm : m.wf) (a : Nat) (v : Byte) : (m.put a v).wf := by
  unfold Memory.put
  have hf : (m.filter (fun c => decide (c.1 ≠ a))).Pairwise (fun c d => c.1 < d.1) := hm.1.filter _
  by_cases hv : v = unlisted
  · rw [if_pos hv]
    exact ⟨hf, fun c hc => hm.2 c (List.mem_filter.mp hc).1⟩
  · rw [if_neg hv]
    refine ⟨Memory.sorted_insertCell hf (fun c hc => by simpa using (List.mem_filter.mp hc).2), fun c hc => ?_⟩
    rcases Memory.mem_insertCell hc with rfl | hc
    · exact hv
    · exact hm.2 c (List.mem_filter.mp hc).1

/-- A write below `n` keeps every cell below `n`. -/
theorem Memory.below_put {m : Memory} {n a : Nat} (hm : m.below n) (ha : a < n) (v : Byte) : (m.put a v).below n := by
  intro c hc
  rcases Memory.mem_put hc with rfl | hc
  · exact ha
  · exact hm c hc

/-- An address with no cell reads as unlisted. -/
theorem Memory.get_of_not_listed {m : Memory} {a : Nat} (h : ∀ c ∈ m, c.1 ≠ a) : m.get a = unlisted := by
  induction m with
  | nil => rfl
  | cons d rest ih =>
    have hd : a ≠ d.1 := fun e => h d List.mem_cons_self e.symm
    simp only [Memory.get, hd, if_false]
    exact ih (fun c hc => h c (List.mem_cons_of_mem _ hc))

/-- A byte at or above every cell reads as zero. -/
theorem Memory.get_of_below {m : Memory} {n a : Nat} (h : m.below n) (ha : n ≤ a) : m.get a = unlisted :=
  Memory.get_of_not_listed (fun c hc => by have := h c hc; omega)

/-- A cell of a canonical memory is what its address reads as. -/
theorem Memory.get_of_mem {m : Memory} (hm : m.wf) {c : Host.Cell} (hc : c ∈ m) : m.get c.1 = c.2 := by
  induction m with
  | nil => cases hc
  | cons d rest ih =>
    have hd := List.pairwise_cons.mp hm.1
    rcases List.mem_cons.mp hc with rfl | hc
    · simp [Memory.get]
    · have : c.1 ≠ d.1 := by have := hd.1 c hc; omega
      simp only [Memory.get, this, if_false]
      exact ih ⟨hd.2, fun e he => hm.2 e (List.mem_cons_of_mem _ he)⟩ hc

/-- Canonical memories that read alike are equal data. -/
theorem Memory.ext_get {m n : Memory} (hm : m.wf) (hn : n.wf) (h : ∀ a, m.get a = n.get a) : m = n := by
  have sub : ∀ {m n : Memory}, m.wf → n.wf → (∀ a, m.get a = n.get a) → ∀ c ∈ m, c ∈ n := by
    intro m n hm hn h c hc
    by_contra hcn
    have hget := Memory.get_of_mem hm hc
    have hne := hm.2 c hc
    by_cases hex : ∃ d ∈ n, d.1 = c.1
    · obtain ⟨d, hd, he⟩ := hex
      have := Memory.get_of_mem hn hd
      rw [he, ← h, hget] at this
      exact hcn (Prod.ext he this.symm ▸ hd)
    · have := Memory.get_of_not_listed (m := n) (a := c.1) (fun d hd he => hex ⟨d, hd, he⟩)
      rw [← h, hget] at this
      exact hne this
  have nodup : ∀ {m : Memory}, m.wf → m.Nodup := fun hm =>
    hm.1.imp (fun {c d} hlt he => by rw [he] at hlt; exact Nat.lt_irrefl _ hlt)
  have perm : m.Perm n := (List.perm_ext_iff_of_nodup (nodup hm) (nodup hn)).mpr
    (fun c => ⟨sub hm hn h c, sub hn hm (fun a => (h a).symm) c⟩)
  exact perm.eq_of_pairwise (fun c d _ _ h1 h2 => absurd h2 (by omega)) hm.1 hn.1

/-! ### Words -/

/-- The bytes after a word is written: four of them, and every other as before (20_memory.md R57). -/
theorem Memory.get_putWord (m : Memory) (a b : Nat) (v : Word) :
    (m.putWord a v).get b = if a ≤ b ∧ b < a + 4 then byteOfWord v (b - a) else m.get b := by
  unfold Memory.putWord
  simp only [Memory.get_put]
  by_cases h3 : b = a + 3
  · subst h3; simp
  by_cases h2 : b = a + 2
  · subst h2; simp
  by_cases h1 : b = a + 1
  · subst h1; simp
  by_cases h0 : b = a
  · subst h0; simp
  · rw [if_neg h3, if_neg h2, if_neg h1, if_neg h0, if_neg (by omega)]

theorem Memory.wf_putWord {m : Memory} (hm : m.wf) (a : Nat) (v : Word) : (m.putWord a v).wf :=
  Memory.wf_put (Memory.wf_put (Memory.wf_put (Memory.wf_put hm _ _) _ _) _ _) _ _

theorem Memory.below_putWord {m : Memory} {n a : Nat} (hm : m.below n) (ha : a + 4 ≤ n) (v : Word) :
    (m.putWord a v).below n :=
  Memory.below_put (Memory.below_put (Memory.below_put (Memory.below_put hm (by omega) _) (by omega) _) (by omega) _)
    (by omega) _

/-- Putting a word together from its bytes gives it back (R52). -/
theorem wordOfBytes_byteOfWord (v : Word) :
    wordOfBytes (byteOfWord v 0) (byteOfWord v 1) (byteOfWord v 2) (byteOfWord v 3) = v := by
  apply BitVec.eq_of_getLsbD_eq
  intro i hi
  simp only [wordOfBytes, byteOfWord, BitVec.getLsbD_append, BitVec.getLsbD_extractLsb']
  by_cases h0 : i < 8
  · simp [h0]
  by_cases h1 : i < 16
  · simp [h0, show i - 8 < 8 by omega, show 8 + (i - 8) = i by omega]
  by_cases h2 : i < 24
  · simp [h0, show ¬ i - 8 < 8 by omega, show i - 8 - 8 < 8 by omega, show 16 + (i - 8 - 8) = i by omega]
  · simp [h0, show ¬ i - 8 < 8 by omega, show ¬ i - 8 - 8 < 8 by omega, show i - 8 - 8 - 8 < 8 by omega,
      show 24 + (i - 8 - 8 - 8) = i by omega]

/-- A word read where it was written is the word (20_memory.md R68). -/
@[simp] theorem Memory.getWord_putWord_same (m : Memory) (a : Nat) (v : Word) : (m.putWord a v).getWord a = v := by
  unfold Memory.getWord
  simp only [Memory.get_putWord]
  rw [if_pos (by omega), if_pos (by omega), if_pos (by omega), if_pos (by omega)]
  simpa using wordOfBytes_byteOfWord v

/-- A word read elsewhere is as before. -/
theorem Memory.getWord_putWord_apart (m : Memory) (a b : Nat) (v : Word) (h : a + 4 ≤ b ∨ b + 4 ≤ a) :
    (m.putWord a v).getWord b = m.getWord b := by
  unfold Memory.getWord
  simp only [Memory.get_putWord]
  rw [if_neg (by omega), if_neg (by omega), if_neg (by omega), if_neg (by omega)]

/-! ### An image -/

theorem Memory.wf_fill {m : Memory} (hm : m.wf) (a : Nat) (bs : List Byte) : (Memory.fill m a bs).wf := by
  induction bs generalizing m a with
  | nil => exact hm
  | cons b rest ih => exact ih (Memory.wf_put hm a b) (a + 1)

theorem Memory.below_fill {m : Memory} {n a : Nat} {bs : List Byte} (hm : m.below n) (h : a + bs.length ≤ n) :
    (Memory.fill m a bs).below n := by
  induction bs generalizing m a with
  | nil => exact hm
  | cons b rest ih =>
    rw [List.length_cons] at h
    exact ih (Memory.below_put hm (by omega) b) (by omega)

/-- Line `k` of an image is its byte `k` (70_reset_and_hazards.md R243). -/
theorem Memory.get_fill (m : Memory) (a b : Nat) (bs : List Byte) :
    (Memory.fill m a bs).get b = if h : a ≤ b ∧ b < a + bs.length then bs[b - a]'(by omega) else m.get b := by
  induction bs generalizing m a with
  | nil =>
    rw [dif_neg (by simp only [List.length_nil]; omega)]
    rfl
  | cons v rest ih =>
    rw [Memory.fill, ih, Memory.get_put]
    by_cases hb : b = a
    · subst hb
      rw [dif_neg (by omega), if_pos rfl, dif_pos (by simp)]
      simp
    · by_cases hin : a + 1 ≤ b ∧ b < a + 1 + rest.length
      · rw [dif_pos hin, dif_pos (by simp only [List.length_cons]; omega)]
        have : b - a = (b - (a + 1)) + 1 := by omega
        simp only [this, List.getElem_cons_succ]
      · rw [dif_neg hin, if_neg hb, dif_neg (by simp only [List.length_cons]; omega)]

end Sys2Proof.Machine
end

