-- ==== Sys2Proof/Laws/Ops.lean ====
section
/-! SUPPORT. What each shared operation can do, said once: alignment, the access primitives, the counters, and the
frames of the named updates. -/

namespace Sys2Proof.Machine

/-! ### Alignment (20_memory.md R55) -/

/-- Rounding down is dividing by four. -/
theorem alignDown_toNat (a : Word) : (alignDown a).toNat = a.toNat / 4 * 4 := by
  have h : alignDown a = (a >>> 2) <<< 2 := by
    apply BitVec.eq_of_getLsbD_eq
    intro i hi
    simp only [alignDown, BitVec.getLsbD_and, BitVec.getLsbD_shiftLeft, BitVec.getLsbD_ushiftRight]
    interval_cases i <;> simp
  have := a.isLt
  rw [h, BitVec.toNat_shiftLeft, BitVec.toNat_ushiftRight, Nat.shiftLeft_eq, Nat.shiftRight_eq_div_pow]
  omega

/-- A whole word fits above an aligned address: `A + 4 <= 2^32` (R54). -/
theorem alignDown_add_four_le (a : Word) : (alignDown a).toNat + 4 ≤ 4294967296 := by
  have := a.isLt
  rw [alignDown_toNat]
  omega

/-! ### The access primitives -/

/-- A fetch finds no word, or the word of the image at the aligned address (R54). -/
theorem ifetch_eq_some {s : State} {a w : Word} :
    s.ifetch a = some w ↔ (alignDown a).toNat + 4 ≤ s.ilen ∧ w = s.imem.getWord (alignDown a).toNat := by
  unfold State.ifetch
  split
  · simp; omega
  · simp [eq_comm]; omega

theorem ifetch_eq_none {s : State} {a : Word} : s.ifetch a = none ↔ s.ilen < (alignDown a).toNat + 4 := by
  unfold State.ifetch
  split <;> simp <;> omega

/-- A fetch depends on the image alone (R66). -/
theorem ifetch_congr {s t : State} (h : SameImage s t) (a : Word) : t.ifetch a = s.ifetch a := by
  unfold State.ifetch
  rw [h.ilen, h.imem]

/-- All a read can do (R56). -/
theorem memRead_cases {s s' : State} {a w : Word} (h : s.memRead a = some (w, s')) :
    (alignDown a).toNat + 4 ≤ s.cfg.dmemLimit ∧ w = s.dmem.getWord (alignDown a).toNat ∧ s' = s.grow a := by
  unfold State.memRead at h
  split at h
  next hr =>
    cases h
    exact ⟨of_decide_eq_true hr, rfl, rfl⟩
  · cases h

/-- When a read is refused (R59). -/
theorem memRead_eq_none {s : State} {a : Word} :
    s.memRead a = none ↔ s.cfg.dmemLimit < (alignDown a).toNat + 4 := by
  unfold State.memRead State.dmemInRange
  split <;> simp_all

/-- All a write can do (R57). -/
theorem memWrite_cases {s s' : State} {a v : Word} (h : s.memWrite a v = some s') :
    (alignDown a).toNat + 4 ≤ s.cfg.dmemLimit ∧ s' = s.storeWord a v := by
  unfold State.memWrite at h
  split at h
  next hr =>
    cases h
    exact ⟨of_decide_eq_true hr, rfl⟩
  · cases h

/-- When a write is refused (R59). -/
theorem memWrite_eq_none {s : State} {a v : Word} :
    s.memWrite a v = none ↔ s.cfg.dmemLimit < (alignDown a).toNat + 4 := by
  unfold State.memWrite State.dmemInRange
  split <;> simp_all

/-- A read in range completes. -/
theorem memRead_of_le {s : State} {a : Word} (h : (alignDown a).toNat + 4 ≤ s.cfg.dmemLimit) :
    s.memRead a = some (s.dmem.getWord (alignDown a).toNat, s.grow a) :=
  if_pos (decide_eq_true h)

/-- A write in range completes. -/
theorem memWrite_of_le {s : State} {a v : Word} (h : (alignDown a).toNat + 4 ≤ s.cfg.dmemLimit) :
    s.memWrite a v = some (s.storeWord a v) :=
  if_pos (decide_eq_true h)

/-! ### Frames of the named updates -/

theorem SameImage.rfl' (s : State) : SameImage s s := ⟨rfl, rfl, rfl⟩

theorem SameData.rfl' (s : State) : SameData s s := ⟨fun _ => rfl, rfl⟩

/-- The counters stay within their width. -/
theorem countUp_lt (s : State) (n : Nat) : s.countUp n < 2 ^ s.cfg.ctrWidth :=
  Nat.mod_lt _ (Nat.two_pow_pos _)

/-- What a register write and a retirement leave: the bookkeeping of an executed instruction. -/
theorem retired_setReg (s : State) (rd : RegIdx) (v npc : Word) : Retired s ((s.setReg rd v).retire npc) npc where
  pc := rfl
  ifNop := rfl
  instret := by simp [State.countUp]
  cycle := by simp [State.countUp]
  run := by simp
  haltCause := by simp
  fault := by simp
  image := ⟨by simp, by simp, by simp⟩

theorem retired_retire (s : State) (npc : Word) : Retired s (s.retire npc) npc where
  pc := rfl
  ifNop := rfl
  instret := rfl
  cycle := rfl
  run := rfl
  haltCause := rfl
  fault := rfl
  image := ⟨rfl, rfl, rfl⟩

theorem onlyReg_setReg_retire (s : State) (rd : RegIdx) (v npc : Word) :
    OnlyReg s ((s.setReg rd v).retire npc) rd v := fun r => by
  rw [retire_getReg, getReg_setReg]

theorem sameData_setReg_retire (s : State) (rd : RegIdx) (v npc : Word) :
    SameData s ((s.setReg rd v).retire npc) := ⟨fun _ => by simp, by simp⟩

/-- A normal halt (45_halt.md R200, R201). -/
theorem haltedNormally_haltNormally (s : State) (c : HaltCause) : HaltedNormally s (s.haltNormally c) c where
  run := rfl
  haltCause := rfl
  ifNop := rfl
  cycle := rfl
  pc := rfl
  instret := rfl
  fault := rfl
  regs := fun _ => rfl
  data := ⟨fun _ => rfl, rfl⟩
  image := ⟨rfl, rfl, rfl⟩

/-- The fault transition (60_exceptions.md R214). -/
theorem faulted_takeFault (s : State) (c : FaultCode) (w : Word) : Faulted s (s.takeFault c w) c w where
  run := rfl
  haltCause := rfl
  ifNop := rfl
  cause := rfl
  faultPc := rfl
  faultInstr := rfl
  faultCycle := rfl
  pc := rfl
  instret := rfl
  cycle := rfl
  regs := fun _ => rfl
  data := ⟨fun _ => rfl, rfl⟩
  image := ⟨rfl, rfl, rfl⟩

end Sys2Proof.Machine
end

