-- ==== Sys2Proof/Laws/PerInstr.lean ====
section
/-! SUPPORT. Facts about every instruction as syntax, one lemma per constructor. -/

namespace Sys2Proof.Laws

/-- The major opcode of an instruction (30_encoding.md R93). -/
def majorOpcode : Instr → BitVec 7
  | .add _ _ _ | .sub _ _ _ | .xor _ _ _ | .or _ _ _ | .and _ _ _ => 0x33#7
  | .addi _ _ _ | .xori _ _ _ | .ori _ _ _ | .andi _ _ _ => 0x13#7
  | .lw _ _ _ => 0x03#7
  | .sw _ _ _ => 0x23#7
  | .beq _ _ _ | .bne _ _ _ => 0x63#7
  | .jal _ _ => 0x6F#7
  | .halt _ => 0x7F#7

/-- The encoder puts the instruction's major opcode in bits 6:0 (R93). -/
def EncodeOpcode.Statement (i : Instr) : Prop := opcodeOf (encode i) = majorOpcode i

theorem EncodeOpcode.add (rd rs1 rs2 : RegIdx) : EncodeOpcode.Statement (.add rd rs1 rs2) := opcodeOf_encodeR ..
theorem EncodeOpcode.sub (rd rs1 rs2 : RegIdx) : EncodeOpcode.Statement (.sub rd rs1 rs2) := opcodeOf_encodeR ..
theorem EncodeOpcode.xor (rd rs1 rs2 : RegIdx) : EncodeOpcode.Statement (.xor rd rs1 rs2) := opcodeOf_encodeR ..
theorem EncodeOpcode.or (rd rs1 rs2 : RegIdx) : EncodeOpcode.Statement (.or rd rs1 rs2) := opcodeOf_encodeR ..
theorem EncodeOpcode.and (rd rs1 rs2 : RegIdx) : EncodeOpcode.Statement (.and rd rs1 rs2) := opcodeOf_encodeR ..
theorem EncodeOpcode.addi (rd rs1 : RegIdx) (imm : BitVec 12) : EncodeOpcode.Statement (.addi rd rs1 imm) :=
  opcodeOf_encodeI ..
theorem EncodeOpcode.xori (rd rs1 : RegIdx) (imm : BitVec 12) : EncodeOpcode.Statement (.xori rd rs1 imm) :=
  opcodeOf_encodeI ..
theorem EncodeOpcode.ori (rd rs1 : RegIdx) (imm : BitVec 12) : EncodeOpcode.Statement (.ori rd rs1 imm) :=
  opcodeOf_encodeI ..
theorem EncodeOpcode.andi (rd rs1 : RegIdx) (imm : BitVec 12) : EncodeOpcode.Statement (.andi rd rs1 imm) :=
  opcodeOf_encodeI ..
theorem EncodeOpcode.lw (rd rs1 : RegIdx) (imm : BitVec 12) : EncodeOpcode.Statement (.lw rd rs1 imm) :=
  opcodeOf_encodeI ..
theorem EncodeOpcode.sw (rs1 rs2 : RegIdx) (imm : BitVec 12) : EncodeOpcode.Statement (.sw rs1 rs2 imm) :=
  opcodeOf_encodeS ..
theorem EncodeOpcode.beq (rs1 rs2 : RegIdx) (imm : BitVec 13) : EncodeOpcode.Statement (.beq rs1 rs2 imm) :=
  opcodeOf_encodeB ..
theorem EncodeOpcode.bne (rs1 rs2 : RegIdx) (imm : BitVec 13) : EncodeOpcode.Statement (.bne rs1 rs2 imm) :=
  opcodeOf_encodeB ..
theorem EncodeOpcode.jal (rd : RegIdx) (imm : BitVec 21) : EncodeOpcode.Statement (.jal rd imm) :=
  opcodeOf_encodeJ ..
theorem EncodeOpcode.halt (ignored : BitVec 25) : EncodeOpcode.Statement (.halt ignored) := opcodeOf_halt ..

end Sys2Proof.Laws
end

