-- ==== Sys2Proof/Laws/Ports.lean ====
section
/-! SUPPORT. The data port of a cycle, said once for each kind of cycle (40_datapath.md R121, R123, R140, 10_state.md
R42). -/

namespace Sys2Proof.Machine

theorem cycleEx_halted {s : State} (h : s.run = .halted) : s.cycleEx = none := if_pos h

theorem cycleEx_notFound {s : State} (h : s.ifetch s.pc = none) : s.cycleEx = none := by
  simp only [State.cycleEx, h, ite_self]

/-- A running cycle that fetches a word executes the decoder's record of it, the sentinel excepted. -/
theorem cycleEx_fetched {s : State} {w : Word} (h : s.run = .running) (hf : s.ifetch s.pc = some w) :
    s.cycleEx = if opcodeOf w = 0x7F#7 then none else exOf w := by
  simp only [State.cycleEx, h, hf, reduceCtorEq, if_false]

theorem dataPort_of_none {s : State} (h : s.cycleEx = none) : s.dataPort = ⟨none, false, false, none⟩ := by
  simp only [State.dataPort, State.memRecord, h, Option.map_none]

theorem dataPort_of_some {s : State} {d : ExRecord} (h : s.cycleEx = some d) :
    s.dataPort = ⟨some (s.execute d).aluResult, d.rdMem, d.wrMem, some (s.execute d).storeData⟩ := by
  simp only [State.dataPort, State.memRecord, h, Option.map_some]

theorem dmemRequest_of_none {s : State} (h : s.cycleEx = none) : s.dmemRequest = none := by
  simp only [State.dmemRequest, State.memRecord, h, Option.map_none]

/-- The access performed is the strobes' within DMEM_LIMIT, and none beyond it. -/
theorem dmemRequest_of_some {s : State} {d : ExRecord} (h : s.cycleEx = some d) :
    s.dmemRequest =
      if s.dmemInRange (s.execute d).aluResult then
        if d.rdMem then some (.read (s.execute d).aluResult)
        else if d.wrMem then some (.write (s.execute d).aluResult (s.execute d).storeData)
        else none
      else none := by
  simp only [State.dmemRequest, State.memRecord, h, Option.map_some]

/-- `dmem_rdata` is the word a read at the port's address would return. -/
theorem dmemAnswer_of_addr {s : State} {a : Word} (h : s.dataPort.addr = some a) :
    s.dmemAnswer = (s.memRead a).map Prod.fst := by
  simp only [State.dmemAnswer, h, Option.bind_some]

end Sys2Proof.Machine
end

