-- ==== Sys2Proof/Laws/Step.lean ====
section
/-! SUPPORT. All an instruction and a cycle can do, said once: every statement about a step is derived from these. -/

namespace Sys2Proof.Machine

/-- What a decoded instruction can do to the state: retire after at most one register write, retire after a load or a
store, halt on the sentinel, or take the data-address fault. -/
inductive Effect (i : Instr) (s : State) : State → Prop where
  /-- R-type, I-type and JAL. -/
  | wrote (rd : RegIdx) (v npc : Word) : Effect i s ((s.setReg rd v).retire npc)
  /-- BEQ and BNE. -/
  | moved (npc : Word) : Effect i s (s.retire npc)
  /-- LW in range. -/
  | loaded (rd : RegIdx) (a : Word) (h : (alignDown a).toNat + 4 ≤ s.cfg.dmemLimit) :
      Effect i s (((s.grow a).setReg rd (s.dmem.getWord (alignDown a).toNat)).retire (s.pc + 4#32))
  /-- SW in range. -/
  | stored (a v : Word) (h : (alignDown a).toNat + 4 ≤ s.cfg.dmemLimit) :
      Effect i s ((s.storeWord a v).retire (s.pc + 4#32))
  /-- HALT. -/
  | halted : Effect i s (s.haltNormally .sentinel)
  /-- LW and SW beyond DMEM_LIMIT. -/
  | refused (a : Word) (h : s.cfg.dmemLimit < (alignDown a).toNat + 4) :
      Effect i s (s.takeFault .dataAddressOutOfRange (encode i))

/-- An instruction always completes, in one of the ways of `Effect`. -/
theorem exec_effect (i : Instr) (s : State) : ∃ t, exec i s = .next t ∧ Effect i s t := by
  cases i with
  | lw rd rs1 imm =>
    by_cases h : (alignDown (s.effAddr rs1 imm)).toNat + 4 ≤ s.cfg.dmemLimit
    · refine ⟨_, ?_, .loaded rd _ h⟩
      simp only [exec, execLw, memRead_of_le h]
    · refine ⟨_, ?_, .refused _ (Nat.lt_of_not_le h)⟩
      simp only [exec, execLw, memRead_eq_none.mpr (Nat.lt_of_not_le h)]
  | sw rs1 rs2 imm =>
    by_cases h : (alignDown (s.effAddr rs1 imm)).toNat + 4 ≤ s.cfg.dmemLimit
    · refine ⟨_, ?_, .stored _ (s.getReg rs2) h⟩
      simp only [exec, execSw, memWrite_of_le h]
    · refine ⟨_, ?_, .refused _ (Nat.lt_of_not_le h)⟩
      simp only [exec, execSw, memWrite_eq_none.mpr (Nat.lt_of_not_le h)]
  | beq rs1 rs2 imm => exact ⟨_, rfl, .moved _⟩
  | bne rs1 rs2 imm => exact ⟨_, rfl, .moved _⟩
  | halt ignored => exact ⟨_, rfl, .halted⟩
  | add rd rs1 rs2 => exact ⟨_, rfl, .wrote _ _ _⟩
  | sub rd rs1 rs2 => exact ⟨_, rfl, .wrote _ _ _⟩
  | xor rd rs1 rs2 => exact ⟨_, rfl, .wrote _ _ _⟩
  | or rd rs1 rs2 => exact ⟨_, rfl, .wrote _ _ _⟩
  | and rd rs1 rs2 => exact ⟨_, rfl, .wrote _ _ _⟩
  | addi rd rs1 imm => exact ⟨_, rfl, .wrote _ _ _⟩
  | xori rd rs1 imm => exact ⟨_, rfl, .wrote _ _ _⟩
  | ori rd rs1 imm => exact ⟨_, rfl, .wrote _ _ _⟩
  | andi rd rs1 imm => exact ⟨_, rfl, .wrote _ _ _⟩
  | jal rd imm => exact ⟨_, rfl, .wrote _ _ _⟩

/-- The effect behind a next state. -/
theorem exec_cases {i : Instr} {s t : State} (h : exec i s = .next t) : Effect i s t := by
  obtain ⟨u, hu, e⟩ := exec_effect i s
  rw [hu] at h
  cases h
  exact e

/-! ### One cycle -/

theorem step_halted {s : State} (h : s.run = .halted) : step s = .next s := by
  simp only [step, State.cycleOnce, h]

theorem step_notFound {s : State} (h : s.run = .running) (hf : s.ifetch s.pc = none) :
    step s = .next s.endOfImage := by
  simp only [step, State.cycleOnce, h, State.runningCycle, hf]

theorem step_illegal {s : State} {w : Word} {e : DecodeReject} (h : s.run = .running)
    (hf : s.ifetch s.pc = some w) (hd : decode w = .error e) : step s = .next (s.decodeFault w) := by
  simp only [step, State.cycleOnce, h, State.runningCycle, hf, hd]

theorem step_decoded {s : State} {w : Word} {i : Instr} (h : s.run = .running)
    (hf : s.ifetch s.pc = some w) (hd : decode w = .ok i) : step s = exec i s := by
  simp only [step, State.cycleOnce, h, State.runningCycle, hf, hd]

/-- All a cycle can do (60_exceptions.md R217). -/
theorem step_cases {s t : State} (h : step s = .next t) :
    (s.run = .halted ∧ t = s) ∨
    (s.run = .running ∧ s.ifetch s.pc = none ∧ t = s.endOfImage) ∨
    (∃ w e, s.run = .running ∧ s.ifetch s.pc = some w ∧ decode w = .error e ∧ t = s.decodeFault w) ∨
    (∃ w i, s.run = .running ∧ s.ifetch s.pc = some w ∧ decode w = .ok i ∧ exec i s = .next t) := by
  cases hr : s.run with
  | halted =>
    rw [step_halted hr] at h
    cases h
    exact .inl ⟨rfl, rfl⟩
  | running =>
    cases hf : s.ifetch s.pc with
    | none =>
      rw [step_notFound hr hf] at h
      cases h
      exact .inr (.inl ⟨rfl, rfl, rfl⟩)
    | some w =>
      cases hd : decode w with
      | error e =>
        rw [step_illegal hr hf hd] at h
        cases h
        exact .inr (.inr (.inl ⟨w, e, rfl, rfl, hd, rfl⟩))
      | ok i =>
        rw [step_decoded hr hf hd] at h
        exact .inr (.inr (.inr ⟨w, i, rfl, rfl, hd, h⟩))

/-- The fetch of a placed word finds it. -/
theorem ifetch_placeWord (s : State) (a w : Word) : (s.placeWord a w).ifetch a = some w := by
  rw [ifetch_eq_some]
  exact ⟨by simp, by simp⟩

end Sys2Proof.Machine
end

