-- ==== Sys2Proof/Tests/Slice0.lean ====
section
/-! SUPPORT. The model's own tests. Expected results are those of spec/95_test_vectors.md and of the worked examples in
the instruction rules; each theorem names the section. The last part gives every statement with hypotheses a state and
operands that meet them. -/

namespace Sys2Proof.Tests

open Sys2Proof.Machine

/-! ### Helpers -/

/-- The reset state at a pc, with a word in the image there. -/
def placed (pc : Word) (w : Nat) : State := { State.reset with pc := pc }.withFetchWord 32 w

/-- The same over the data image IMG16 of section 2.4, bytes 10 to 1F. -/
def img16 (w : Nat) : State :=
  (State.load [] ((List.range 16).map (fun k => BitVec.ofNat 8 (16 + k))) defaultConfig).withFetchWord 32 w

/-- DMEM_LIMIT lowered to 2^31, as in program P6. -/
def limited (s : State) : State := { s with cfg := { dmemLimit := 2147483648, ctrWidth := 64 } }

/-- The state after one step. -/
def after (s : State) : State :=
  match step s with
  | .next t => t
  | .fault _ => s
  | .refused _ => s

/-- Registers 1, 2, 5 and 6 preset. -/
def preset12 (s : State) (a b : Word) : State := (s.setReg 1#5 a).setReg 2#5 b
def preset56 (s : State) (a b : Word) : State := (s.setReg 5#5 a).setReg 6#5 b

/-! ### Well-formedness: one ill-formed term for each check -/

theorem test_wf_refuses_odd_beq : (Instr.beq 1#5 2#5 0x0003#13).wf = false := by decide
theorem test_wf_refuses_odd_bne : (Instr.bne 1#5 2#5 0x1FFF#13).wf = false := by decide
theorem test_wf_refuses_odd_jal : (Instr.jal 1#5 0x000001#21).wf = false := by decide
theorem test_wf_admits_even : (Instr.jal 1#5 0x1FFFFE#21).wf = true := by decide

/-! ### Decoding: one word per constructor, written out from its encoding (95_test_vectors.md 2.1 to 2.6) -/

theorem test_decode_add : decode 0b0000000_00010_00001_000_00011_0110011#32 = .ok (.add 3#5 1#5 2#5) := by decide
theorem test_decode_sub : decode 0b0100000_00010_00001_000_00011_0110011#32 = .ok (.sub 3#5 1#5 2#5) := by decide
theorem test_decode_xor : decode 0b0000000_00010_00001_100_00011_0110011#32 = .ok (.xor 3#5 1#5 2#5) := by decide
theorem test_decode_or : decode 0b0000000_00010_00001_110_00011_0110011#32 = .ok (.or 3#5 1#5 2#5) := by decide
theorem test_decode_and : decode 0b0000000_00010_00001_111_00011_0110011#32 = .ok (.and 3#5 1#5 2#5) := by decide
theorem test_decode_addi : decode 0b000000000101_00000_000_00001_0010011#32 = .ok (.addi 1#5 0#5 5#12) := by decide
theorem test_decode_xori : decode 0b111111111111_00110_100_00101_0010011#32 = .ok (.xori 5#5 6#5 0xFFF#12) := by decide
theorem test_decode_ori : decode 0b000011110000_00110_110_00101_0010011#32 = .ok (.ori 5#5 6#5 0x0F0#12) := by decide
theorem test_decode_andi : decode 0b011111111111_00110_111_00101_0010011#32 = .ok (.andi 5#5 6#5 0x7FF#12) := by decide
theorem test_decode_lw : decode 0b111111111100_00110_010_00101_0000011#32 = .ok (.lw 5#5 6#5 0xFFC#12) := by decide
theorem test_decode_sw : decode 0b0101010_00101_00110_010_10101_0100011#32 = .ok (.sw 6#5 5#5 0x555#12) := by decide
theorem test_decode_beq : decode 0b1_111111_00010_00001_000_1110_1_1100011#32 = .ok (.beq 1#5 2#5 0x1FFC#13) := by decide
theorem test_decode_bne : decode 0b1_111111_00000_00001_001_1100_1_1100011#32 = .ok (.bne 1#5 0#5 0x1FF8#13) := by decide
theorem test_decode_jal : decode 0b1_1111111010_1_11111111_00000_1101111#32 = .ok (.jal 0#5 0x1FFFF4#21) := by decide
theorem test_decode_halt : decode 0xFFFFFFFF#32 = .ok (.halt 0x1FFFFFF#25) := by decide

/-- The bits of the B and J immediates each alone (2.1). -/
theorem test_decode_beq_bit11 : decode 0x7E208FE3#32 = .ok (.beq 1#5 2#5 0x0FFE#13) := by decide
theorem test_decode_jal_bit11 : decode 0x001000EF#32 = .ok (.jal 1#5 0x000800#21) := by decide

/-- Illegal words are rejected by name (2.7). -/
theorem test_reject_zero : decode 0x00000000#32 = .error (.majorOpcode 0x00#7) := by decide
theorem test_reject_mul : decode 0x022081B3#32 = .error (.arith 0x01#7 0b000#3) := by decide
theorem test_reject_xor_funct7 : decode 0x4020C1B3#32 = .error (.arith 0x20#7 0b100#3) := by decide
theorem test_reject_slli : decode 0x00109093#32 = .error (.arithImm 0b001#3) := by decide
theorem test_reject_lb : decode 0x00008183#32 = .error (.load 0b000#3) := by decide
theorem test_reject_sb : decode 0x00208023#32 = .error (.store 0b000#3) := by decide
theorem test_reject_blt : decode 0x0020C463#32 = .error (.branch 0b100#3) := by decide
theorem test_reject_short : decodeBytes [0x00#8, 0x50#8, 0x00#8] = .error (.truncated 3) := by decide

/-- Bytes are read most significant first, and the rest is handed back (95, conventions: 00 50 00 93). -/
theorem test_decode_bytes :
    decodeBytes [0x00#8, 0x50#8, 0x00#8, 0x93#8, 0xAA#8] = .ok (.addi 1#5 0#5 5#12, [0xAA#8]) := by decide

theorem test_table_word : decodeTableWord 32 0x00500093 = some (.addi 1#5 0#5 5#12) := by decide

/-- Encoding, one word of each format (2.1). -/
theorem test_encode_sub : encode (.sub 3#5 1#5 2#5) = 0x402081B3#32 := by decide
theorem test_encode_lw : encode (.lw 5#5 6#5 0xFFC#12) = 0xFFC32283#32 := by decide
theorem test_encode_sw : encode (.sw 6#5 5#5 0xFF8#12) = 0xFE532C23#32 := by decide
theorem test_encode_beq : encode (.beq 1#5 2#5 0x1FFC#13) = 0xFE208EE3#32 := by decide
theorem test_encode_jal : encode (.jal 0#5 0x1FFFF4#21) = 0xFF5FF06F#32 := by decide
theorem test_encode_halt : encodeBytes (.halt 0x2468AF#25) = [0x12#8, 0x34#8, 0x57#8, 0xFF#8] := by decide

/-! ### One step of each instruction (95_test_vectors.md 2.2 to 2.6) -/

theorem test_add_wraps :
    (after (preset12 (placed 0#32 0x002081B3) 0x7FFFFFFF#32 1#32)).getReg 3#5 = 0x80000000#32 := by decide
theorem test_add_reads_before_write :
    (after (preset12 (placed 0#32 0x001080B3) 0x80000001#32 0#32)).getReg 1#5 = 0x00000002#32 := by decide
theorem test_add_to_x0 :
    let t := after (preset12 (placed 0#32 0x00208033) 5#32 6#32)
    (t.getReg 0#5, t.pc, t.instret) = (0#32, 4#32, 1) := by decide
theorem test_sub_borrows :
    (after (preset12 (placed 0#32 0x402081B3) 0#32 1#32)).getReg 3#5 = 0xFFFFFFFF#32 := by decide
theorem test_xor :
    (after (preset12 (placed 0#32 0x0020C1B3) 0xAAAAAAAA#32 0xFFFFFFFF#32)).getReg 3#5 = 0x55555555#32 := by decide
theorem test_or :
    (after (preset12 (placed 0#32 0x0020E1B3) 0xAAAA0000#32 0x00005555#32)).getReg 3#5 = 0xAAAA5555#32 := by decide
theorem test_and :
    (after (preset12 (placed 0#32 0x0020F1B3) 0xAAAAFFFF#32 0x0F0F0F0F#32)).getReg 3#5 = 0x0A0A0F0F#32 := by decide
theorem test_addi_property_T3 :
    let t := after (placed 0#32 0x00500093)
    (t.getReg 1#5, t.pc, t.cycle, t.instret, t.run, t.ifNop) = (5#32, 4#32, 1, 1, .running, false) := by decide
theorem test_addi_sign_extends : (after (placed 0#32 0x80008193)).getReg 3#5 = 0xFFFFF800#32 := by decide
theorem test_xori_not : (after (placed 0#32 0xFFF0C193)).getReg 3#5 = 0xFFFFFFFF#32 := by decide
theorem test_ori_sign_extends :
    (after (preset12 (placed 0#32 0x8000E193) 0x000007FF#32 0#32)).getReg 3#5 = 0xFFFFFFFF#32 := by decide
theorem test_andi_sign_extends :
    (after (preset12 (placed 0#32 0x8000F193) 0xFFFFFFFF#32 0#32)).getReg 3#5 = 0xFFFFF800#32 := by decide

/-- Address 5 is rounded down to 4. -/
theorem test_lw_aligns_down :
    let t := after (img16 0x0050A183)
    (t.getReg 3#5, t.dlen) = (0x14151617#32, 16) := by decide
/-- A load to x0 past the data still grows the store. -/
theorem test_lw_x0_grows :
    let t := after (placed 0#32 0x06402003)
    (t.getReg 0#5, t.dlen, t.dmem) = (0#32, 104, []) := by decide
theorem test_sw_aligns_down :
    (after (preset12 (img16 0x0020A3A3) 0#32 0xA1B2C3D4#32)).dump =
      [0x10#8, 0x11#8, 0x12#8, 0x13#8, 0xA1#8, 0xB2#8, 0xC3#8, 0xD4#8, 0x18#8, 0x19#8, 0x1A#8, 0x1B#8, 0x1C#8, 0x1D#8,
        0x1E#8, 0x1F#8] := by decide
/-- The effective address wraps. -/
theorem test_sw_wraps :
    ((after (preset56 (img16 0x00532423) 0x55667788#32 0xFFFFFFFC#32)).dmem.getWord 4) = 0x55667788#32 := by decide
/-- P6: with DMEM_LIMIT = 2^32 the top word is stored. -/
theorem test_sw_top_of_memory :
    let t := after (preset12 (placed 4#32 0x0010A023) 0xFFFFFFFC#32 0#32)
    (t.dlen, t.dmem) =
      (4294967296, [(4294967292, 0xFF#8), (4294967293, 0xFF#8), (4294967294, 0xFF#8), (4294967295, 0xFC#8)]) := by decide
/-- P6: with DMEM_LIMIT = 2^31 the same store faults and leaves everything else. -/
theorem test_sw_beyond_limit :
    let t := after (limited (preset12 (placed 4#32 0x0010A023) 0xFFFFFFFC#32 0#32))
    (t.run, t.haltCause, t.fault) = (.halted, .fault, ⟨.dataAddressOutOfRange, 4#32, 0x0010A023#32, 0⟩) ∧
      (t.pc, t.dlen, t.dmem, t.cycle, t.instret) = (4#32, 0, [], 0, 0) := by decide

theorem test_beq_taken_T4 :
    (after (preset12 (placed 16#32 0xFE208EE3) 0x55#32 0x55#32)).pc = 12#32 := by decide
theorem test_beq_not_taken :
    (after (preset12 (placed 100#32 0x00208463) 5#32 6#32)).pc = 104#32 := by decide
theorem test_bne_taken :
    (after (preset12 (placed 100#32 0xF8209EE3) 5#32 6#32)).pc = 0#32 := by decide
theorem test_bne_not_taken :
    (after (preset12 (placed 100#32 0xF8209EE3) 5#32 5#32)).pc = 104#32 := by decide
theorem test_jal_far :
    let t := after (placed 4#32 0x7FFFF0EF)
    (t.getReg 1#5, t.pc) = (8#32, 0x00100002#32) := by decide
/-- P5: fetch, link and target at a pc that is no multiple of 4. -/
theorem test_jal_unaligned_pc :
    let t := after (placed 6#32 0x008002EF)
    (t.getReg 5#5, t.pc) = (0x0000000A#32, 14#32) := by decide
theorem test_halt_ignores_high_bits :
    let t := after (placed 0#32 0x123457FF)
    (t.run, t.haltCause, t.pc, t.ifNop, t.cycle, t.instret) = (.halted, .sentinel, 0#32, true, 1, 0) := by decide
theorem test_end_of_empty_image :
    let t := after State.reset
    (t.run, t.haltCause, t.pc, t.ifNop, t.cycle, t.instret) = (.halted, .endOfImage, 0#32, true, 1, 0) := by decide
/-- An image of 6 bytes: the trailing two are never fetched (2.6). -/
theorem test_partial_last_word :
    (State.load [0x00#8, 0x50#8, 0x00#8, 0x93#8, 0x00#8, 0x10#8] [] defaultConfig).ifetch 4#32 = none := by decide
/-- P4: the illegal word 0x00109093. -/
theorem test_illegal_word_faults :
    let t := after (preset12 (placed 4#32 0x00109093) 1#32 0#32)
    (t.run, t.haltCause, t.fault) = (.halted, .fault, ⟨.decodeError, 4#32, 0x00109093#32, 0⟩) ∧
      (t.pc, t.cycle, t.instret, t.ifNop, t.getReg 1#5) = (4#32, 0, 0, true, 1#32) := by decide
theorem test_halted_step_is_idle : after (after (placed 0#32 0xFFFFFFFF)) = after (placed 0#32 0xFFFFFFFF) := by decide

/-- Line order and bit order of an image line (70_reset_and_hazards.md R243). -/
theorem test_image_line : byteOfLine "10010011".toList = some 0x93#8 := by decide
theorem test_image_line_bad : byteOfLine "1001001".toList = none := by decide

/-! ### Every statement's hypotheses are met somewhere -/

theorem witness_RegisterWriteReadsBack : (31#5 : RegIdx) ≠ 0#5 ∧ (1#5 : RegIdx) ≠ 0#5 := by decide
theorem witness_RegisterIndexContract_out : State.reset.readIndex 32 = .error (.regIndexOutOfRange 32) := by decide
theorem witness_RegisterIndexContract_in : State.reset.readIndex 31 = .ok 0#32 := by decide
theorem witness_RegisterIndexContract_fault :
    ∃ s t : State, s.run = .running ∧ s.haltCause = .none ∧ step s = .next t ∧ t.haltCause = .fault :=
  ⟨placed 0#32 0x00000000, after (placed 0#32 0x00000000), by decide, by decide, rfl, by decide⟩

/-- At ILEN = 4 the word at address 3 is found and that at 4 is not. -/
theorem witness_FetchReadsTheAlignedWord :
    (placed 0#32 0x00500093).ifetch 3#32 = some 0x00500093#32 ∧ (placed 0#32 0x00500093).ifetch 4#32 = none := by decide
/-- The last word below DMEM_LIMIT is read, the next is refused. -/
theorem witness_DataReadReturnsTheAlignedWord :
    (0x7FFFFFFF#32).toNat / 4 * 4 + 4 ≤ (limited State.reset).cfg.dmemLimit ∧
      (limited State.reset).cfg.dmemLimit < (0x80000000#32).toNat / 4 * 4 + 4 ∧
      (∀ c ∈ (limited State.reset).dmem, c.1 < (0x7FFFFFFF#32).toNat / 4 * 4 ∨
        (0x7FFFFFFF#32).toNat / 4 * 4 + 4 ≤ c.1) := by decide
theorem witness_DataWriteOverwritesTheAlignedWord :
    ((limited State.reset).memWrite 0x7FFFFFFF#32 0xA1B2C3D4#32).isSome = true ∧
      (limited State.reset).memWrite 0x80000000#32 0xA1B2C3D4#32 = none := by decide
theorem witness_StoreThenLoadReturnsTheWord :
    (6#32).toNat / 4 = (5#32).toNat / 4 ∧ (6#32).toNat / 4 * 4 + 4 ≤ State.reset.cfg.dmemLimit := by decide
theorem witness_StoreLeavesOtherWordsAlone :
    (3#32).toNat / 4 ≠ (4#32).toNat / 4 ∧ (State.reset.memWrite 3#32 1#32).isSome = true := by decide

theorem witness_AddAndSubComplete :
    (0xFFFFFFB3#32 &&& 0x01FF8FFF#32) &&& 0xFE00707F#32 = 0x00000033#32 ∧
      0x402081B3#32 &&& 0xFE00707F#32 = 0x40000033#32 := by decide
theorem witness_XorOrAndComplete :
    0x0020C1B3#32 &&& 0xFE00707F#32 = 0x00004033#32 ∧ 0x0020E1B3#32 &&& 0xFE00707F#32 = 0x00006033#32 ∧
      0x0020F1B3#32 &&& 0xFE00707F#32 = 0x00007033#32 := by decide
theorem witness_ImmediateArithmeticCompletes :
    0xFFF08093#32 &&& 0x0000707F#32 = 0x00000013#32 ∧ 0xFFF34293#32 &&& 0x0000707F#32 = 0x00004013#32 ∧
      0x0F036293#32 &&& 0x0000707F#32 = 0x00006013#32 ∧ 0x7FF37293#32 &&& 0x0000707F#32 = 0x00007013#32 := by decide
/-- The top word of memory, at the default limit: `x[1] + imm` with `x[1] = 0`, `imm = -4`. -/
theorem witness_LoadWordCompletes :
    0xFFC32283#32 &&& 0x0000707F#32 = 0x00002003#32 ∧
      4294967292 = (alignDown (State.reset.getReg 1#5 + (0xFFC#12).signExtend 32)).toNat ∧
      4294967292 + 4 ≤ State.reset.cfg.dmemLimit := by decide
theorem witness_StoreWordCompletes :
    0xFE532C23#32 &&& 0x0000707F#32 = 0x00002023#32 ∧
      2147483644 = (alignDown (((limited State.reset).setReg 1#5 0x7FFFFFFF#32).getReg 1#5 + (0#12).signExtend 32)).toNat ∧
      2147483644 + 4 ≤ (limited State.reset).cfg.dmemLimit := by decide
theorem witness_AccessBeyondTheLimitFaults :
    (limited State.reset).cfg.dmemLimit <
      (alignDown (((limited State.reset).setReg 1#5 0x80000000#32).getReg 1#5 + (0#12).signExtend 32)).toNat + 4 := by
  decide
theorem witness_BranchesComplete :
    0xFE208EE3#32 &&& 0x0000707F#32 = 0x00000063#32 ∧ 0xFE009CE3#32 &&& 0x0000707F#32 = 0x00001063#32 ∧
      State.reset.getReg 1#5 = State.reset.getReg 2#5 ∧
      (State.reset.setReg 1#5 1#32).getReg 1#5 ≠ (State.reset.setReg 1#5 1#32).getReg 2#5 := by decide
theorem witness_JumpAndLinkCompletes : 0xFF5FF06F#32 &&& 0x0000007F#32 = 0x0000006F#32 := by decide
theorem witness_HaltSentinelHalts :
    ∃ (s : State) (w : Word), s.run = .running ∧ s.ifetch s.pc = some w ∧ w &&& 0x0000007F#32 = 0x0000007F#32 :=
  ⟨placed 6#32 0x0000007F, 0x0000007F#32, by decide, by decide, by decide⟩
/-- The empty image, and the first address past an image of one word. -/
theorem witness_EndOfImageHalts :
    (State.reset.run = .running ∧ State.reset.ilen < (State.reset.pc &&& 0xFFFFFFFC#32).toNat + 4) ∧
      (let s := { placed 0#32 0x00000013 with pc := 4#32 }
       s.run = .running ∧ s.ilen < (s.pc &&& 0xFFFFFFFC#32).toNat + 4) := by decide
theorem witness_StoreInstructionThenLoadInstruction :
    alignDown (State.reset.getReg 0#5 + (0x006#12).signExtend 32) =
        alignDown (State.reset.getReg 3#5 + (0x005#12).signExtend 32) ∧
      (alignDown (State.reset.getReg 0#5 + (0x006#12).signExtend 32)).toNat + 4 ≤ State.reset.cfg.dmemLimit := by decide

theorem witness_HaltedCycleChangesNothing : (after State.reset).run = .halted := by decide
theorem witness_StepRunsTheDecodedInstruction :
    ∃ (s : State) (a : Nat) (i : Instr) (rest : List Byte), s.run = .running ∧ a = (alignDown s.pc).toNat ∧
      a + 4 ≤ s.ilen ∧
      decodeBytes [s.imem.get a, s.imem.get (a + 1), s.imem.get (a + 2), s.imem.get (a + 3)] = .ok (i, rest) :=
  ⟨placed 6#32 0x008002EF, 4, .jal 5#5 8#21, [], by decide, by decide, by decide, by decide⟩
theorem witness_PlacedWordRunsNext : decodeTableWord 32 0x0000007F = some (.halt 0#25) := by decide
theorem witness_IllegalWordFaults :
    ∃ (s : State) (w : Word), s.run = .running ∧ s.ifetch s.pc = some w ∧
      ∀ r ∈ opcodeTable, w &&& r.mask ≠ r.match_ :=
  ⟨placed 0#32 0x0220C1B3, 0x0220C1B3#32, by decide, by decide, by decide⟩
/-- Both causes of a fault. -/
theorem witness_FaultsArePrecise :
    (∃ s t : State, s.run = .running ∧ s.haltCause = .none ∧ step s = .next t ∧ t.haltCause = .fault ∧
      t.fault.cause = .decodeError) ∧
    (∃ s t : State, s.run = .running ∧ s.haltCause = .none ∧ step s = .next t ∧ t.haltCause = .fault ∧
      t.fault.cause = .dataAddressOutOfRange) :=
  ⟨⟨placed 0#32 0x00000073, after (placed 0#32 0x00000073), by decide, by decide, rfl, by decide, by decide⟩,
    ⟨limited (placed 0#32 0xFFC02083), after (limited (placed 0#32 0xFFC02083)), by decide, by decide, rfl, by decide,
      by decide⟩⟩
/-- A taken branch, a jump, the next word, a hold and the end of the image. -/
theorem witness_PcAdvances :
    (after (placed 8#32 0x00000163)).pc = 10#32 ∧ (after (placed 20#32 0xFF5FF06F)).pc = 8#32 ∧
      (after (placed 0xFFFFFFFC#32 0x00000013)).pc = 0#32 ∧ (after (placed 4#32 0xFFFFFFFF)).pc = 4#32 ∧
      State.reset.ifetch State.reset.pc = none := by decide

theorem witness_OpcodeRowsAreDisjoint :
    ∃ r ∈ opcodeTable, 0xFFFFFFFF#32 &&& r.mask = r.match_ := by decide
theorem witness_DecodeOfEncode :
    (Instr.beq 31#5 0#5 0x1000#13).wf = true ∧ (Instr.jal 31#5 0x100000#21).wf = true ∧
      (Instr.halt 0#25).wf = true := by decide
theorem witness_EncodeOfDecode : decode 0x80208063#32 = .ok (.beq 1#5 2#5 0x1000#13) := by decide
theorem witness_ControlSignalsPerClass :
    (0x1000#13).getLsbD 0 = false ∧ (0x100000#21).getLsbD 0 = false ∧
      (AluOp.and, Instr.andi 1#5 2#5 0#12) ∈ [(AluOp.add, Instr.addi 1#5 2#5 0#12), (.and, .andi 1#5 2#5 0#12)] := by decide

theorem witness_AtMostOneRegisterChanges : ∃ s t : State, step s = .next t :=
  ⟨placed 0#32 0x00500093, after (placed 0#32 0x00500093), rfl⟩
theorem witness_ImageNeverChanges : ∃ s t : State, step s = .next t ∧ t.dmem ≠ s.dmem :=
  ⟨(placed 0#32 0x00102023).setReg 1#5 1#32, after ((placed 0#32 0x00102023).setReg 1#5 1#32), rfl, by decide⟩
theorem witness_OnlyStoresChangeBytes : ∃ (s t : State) (b : Nat), step s = .next t ∧ t.dmem.get b ≠ s.dmem.get b :=
  ⟨(placed 0#32 0x00102023).setReg 1#5 1#32, after ((placed 0#32 0x00102023).setReg 1#5 1#32), 3, rfl, by decide⟩
theorem witness_DataStoreNeverShrinks : ∃ s t : State, step s = .next t ∧ t.dlen ≠ s.dlen :=
  ⟨placed 0#32 0x06402003, after (placed 0#32 0x06402003), rfl, by decide⟩
theorem witness_UnboundedStoreNeverRefusesAnAddress :
    ∃ s t : State, s.cfg.dmemLimit = 4294967296 ∧ s.run = .running ∧ s.haltCause = .none ∧ step s = .next t ∧
      t.haltCause = .fault :=
  ⟨placed 0#32 0x00000073, after (placed 0#32 0x00000073), by decide, by decide, by decide, rfl, by decide⟩
theorem witness_IdleFlagAndFaultRecordAreNotRead :
    ∃ s t : State, s.run = .running ∧ s.haltCause = .none ∧ step s = .next t :=
  ⟨placed 0#32 0x00500093, after (placed 0#32 0x00500093), by decide, by decide, rfl⟩
/-- R5's bounds: the least and the greatest DMEM_LIMIT, filled to the brim and empty. -/
theorem witness_LoadedStatesMeetTheInvariants :
    Config.wf { dmemLimit := 4, ctrWidth := 1 } ∧ [0#8, 0#8, 0#8, 0#8].length ≤ 4 ∧ defaultConfig.wf ∧
      ([] : List Byte).length ≤ 4294967296 := by decide

/-- The reset invariant is a statement for the provers; here its parts at a state that is not reset. -/
theorem witness_StepKeepsTheInvariant : ∃ s t : State, s.Inv ∧ step s = .next t := by
  refine ⟨placed 0#32 0x00102023, after (placed 0#32 0x00102023), ⟨by decide, ?_, by decide, ?_⟩, rfl⟩
  · exact ⟨by decide, by decide, by decide, by decide, by decide, by decide⟩
  · exact ⟨Nat.two_pow_pos _, Nat.two_pow_pos _, Nat.two_pow_pos _⟩
theorem witness_StepKeepsTheCount : ∃ s t : State, s.CountersAgree ∧ step s = .next t :=
  ⟨placed 0#32 0xFFFFFFFF, after (placed 0#32 0xFFFFFFFF), by decide, rfl⟩
theorem witness_StepKeepsThePcEven : ∃ s t : State, s.pcEven ∧ step s = .next t :=
  ⟨placed 8#32 0x00000163, after (placed 8#32 0x00000163), by decide, rfl⟩

theorem witness_ResetSetsEveryPieceOfState :
    ((after (img16 0x0050A183)).applyReset [0xDE#8, 0xAD#8]).dmem = [(0, 0xDE#8), (1, 0xAD#8)] ∧
      ((after (img16 0x0050A183)).applyReset [0xDE#8, 0xAD#8]).getReg 3#5 = 0#32 := by decide
theorem witness_LoadedWordIsFetched :
    (1 < [0x00500093#32, 0x00108113#32].length ∧ 4 * [0x00500093#32, 0x00108113#32].length ≤ 4294967296) ∧
      (State.load ([0x00500093#32, 0x00108113#32].flatMap bytesOfWord) [] defaultConfig).ifetch 4#32 =
        some 0x00108113#32 := by decide
theorem witness_TraceShowsTheStateAfterTheCycle : ∃ s t : State, s.run = .running ∧ step s = .next t :=
  ⟨placed 0#32 0x00500093, after (placed 0#32 0x00500093), by decide, rfl⟩
/-- A program that halts in cycle 0 (T6), and one instruction then the end of the image (T3). -/
theorem witness_NormalRunSummary :
    (let s := after State.reset
     s.CountersAgree ∧ s.endedNormally ∧ s.instret = 0 ∧ s.cycle = 1) ∧
      (let s := after (after (placed 0#32 0x00500093))
       s.CountersAgree ∧ s.endedNormally ∧ s.instret = 1 ∧ s.cycle = 2) := by decide
theorem witness_NormalRunSummary_noWrap :
    (after (after (placed 0#32 0x00500093))).instret + 1 <
      2 ^ (after (after (placed 0#32 0x00500093))).cfg.ctrWidth := by decide
theorem witness_DataPortCarriesTheAccess :
    (placed 0#32 0x06402003).dmemRequest = some (.read 100#32) ∧
      (preset12 (img16 0x0020A3A3) 0#32 0xA1B2C3D4#32).dmemRequest = some (.write 7#32 0xA1B2C3D4#32) ∧
      (placed 0#32 0x002081B3).dmemRequest = none ∧
      (limited (placed 0#32 0xFFC02083)).dmemRequest = none := by decide

/-- A load, and the same load beyond DMEM_LIMIT: the strobe is that of the instruction, the answer is missing. -/
theorem test_port_of_refused_load :
    let s := limited (placed 0#32 0xFFC02083)
    s.dataPort = ⟨some 0xFFFFFFFC#32, true, false, some 0#32⟩ ∧ s.dmemAnswer = none ∧ s.dmemRequest = none := by decide
/-- An ADD drives the address and data wires with the strobes low. -/
theorem test_port_of_add :
    (preset12 (placed 0#32 0x002081B3) 7#32 5#32).dataPort = ⟨some 12#32, false, false, some 5#32⟩ := by decide

/-- A decoded word, each kind of cycle that executes none, and an address the store answers. -/
theorem witness_DataPortOfEveryCycle_executed :
    (placed 0#32 0x00C000EF).run = .running ∧ (placed 0#32 0x00C000EF).ifetch 0#32 = some 0x00C000EF#32 ∧
      decode 0x00C000EF#32 = .ok (.jal 1#5 12#21) := by decide
theorem witness_DataPortOfEveryCycle_none :
    (after State.reset).run = .halted ∧ State.reset.ifetch State.reset.pc = none ∧
      (placed 0#32 0).ifetch (placed 0#32 0).pc = some 0#32 ∧ ∀ r ∈ opcodeTable, 0#32 &&& r.mask ≠ r.match_ := by decide
theorem witness_DataPortOfEveryCycle_answer :
    (img16 0x0050A183).dataPort.addr = some 5#32 ∧ (img16 0x0050A183).dmemAnswer = some 0x14151617#32 := by decide

end Sys2Proof.Tests
end

section
/-! ### The zero register (10_state.md R21) -/

namespace Sys2Proof.Machine

@[simp] theorem setReg_zero (s : State) (v : Word) : s.setReg 0#5 v = s := if_pos rfl

/-- Settles O1: index 0 is the branch of the register ports that never reaches the stored registers. -/
theorem zeroRegisterReadsZeroAndDiscardsWrites : Obligations.ZeroRegisterReadsZeroAndDiscardsWrites :=
  fun s v => ⟨getReg_zero s, setReg_zero s v⟩

end Sys2Proof.Machine
end

section
/-! ### The bits and the range of the immediates (30_encoding.md R89 to R92) -/

namespace Sys2Proof.Machine

open BitVec

/-! Sign extension keeps the bits below the top one, repeats the top one, and keeps the value (R88). -/

theorem getLsbD_sext {n k : Nat} (imm : BitVec (n + 1)) (hk : k < 32) :
    (sext imm).getLsbD k = if k < n then imm.getLsbD k else imm.getLsbD n := by
  have hmsb : imm.msb = imm.getLsbD n := msb_eq_getLsbD_last imm
  rw [sext, getLsbD_signExtend, hmsb, decide_eq_true hk, Bool.true_and]
  rcases Nat.lt_trichotomy k n with h | rfl | h
  · rw [if_pos h, if_pos (Nat.lt_succ_of_lt h)]
  · simp
  · rw [if_neg (by omega), if_neg (by omega)]

theorem toInt_sext {n : Nat} (imm : BitVec n) (hn : n ≤ 32) : (sext imm).toInt = imm.toInt :=
  toInt_signExtend_of_le hn

theorem toInt_emod_two {n : Nat} (imm : BitVec (n + 1)) (h : imm.getLsbD 0 = false) : imm.toInt % 2 = 0 := by
  have heven : imm.toNat % 2 = 0 := by simpa [getLsbD] using h
  have hpow : 2 ^ (n + 1) = 2 * 2 ^ n := Nat.pow_succ'
  rw [toInt_eq_toNat_cond, hpow]
  split <;> omega

/-! The bit of the word at each place of an immediate, as its layout names it. -/

theorem getLsbD_immIOf (w : Word) {k : Nat} (hk : k < 12) : (immIOf w).getLsbD k = w.getLsbD (k + 20) := by
  rw [immIOf, getLsbD_extractLsb', decide_eq_true hk, Bool.true_and, Nat.add_comm]

theorem getLsbD_immSOf (w : Word) {k : Nat} (hk : k < 12) :
    (immSOf w).getLsbD k = if k ≤ 4 then w.getLsbD (k + 7) else w.getLsbD (k + 20) := by
  simp only [immSOf, getLsbD_append, getLsbD_extractLsb']
  interval_cases k <;> rfl

theorem getLsbD_immBOf (w : Word) {k : Nat} (hk : k < 13) :
    (immBOf w).getLsbD k = if k = 0 then false else if k ≤ 4 then w.getLsbD (k + 7) else if k ≤ 10 then w.getLsbD (k + 20)
      else if k = 11 then w.getLsbD 7 else w.getLsbD 31 := by
  simp only [immBOf, getLsbD_append, getLsbD_extractLsb']
  interval_cases k <;> rfl

theorem getLsbD_immJOf (w : Word) {k : Nat} (hk : k < 21) :
    (immJOf w).getLsbD k = if k = 0 then false else if k ≤ 10 then w.getLsbD (k + 20) else if k = 11 then w.getLsbD 20
      else if k ≤ 19 then w.getLsbD k else w.getLsbD 31 := by
  simp only [immJOf, getLsbD_append, getLsbD_extractLsb']
  interval_cases k <;> rfl

/-! The layout's places below the top one, then copies of `instr[31]`. -/

theorem getLsbD_sext_immIOf (w : Word) {k : Nat} (hk : k < 32) :
    (sext (immIOf w)).getLsbD k = if k ≤ 10 then w.getLsbD (k + 20) else w.getLsbD 31 := by
  rw [getLsbD_sext _ hk]
  split
  · exact (getLsbD_immIOf w (by omega)).trans (if_pos (by omega)).symm
  · exact (getLsbD_immIOf w (by omega)).trans (if_neg (by omega)).symm

theorem getLsbD_sext_immSOf (w : Word) {k : Nat} (hk : k < 32) :
    (sext (immSOf w)).getLsbD k =
      if k ≤ 4 then w.getLsbD (k + 7) else if k ≤ 10 then w.getLsbD (k + 20) else w.getLsbD 31 := by
  rw [getLsbD_sext _ hk]
  split
  · rw [getLsbD_immSOf w (by omega), if_pos (show k ≤ 10 by omega)]
  · simp (disch := omega) only [getLsbD_immSOf, if_neg, Nat.reduceAdd]

theorem getLsbD_sext_immBOf (w : Word) {k : Nat} (hk : k < 32) :
    (sext (immBOf w)).getLsbD k =
      if k = 0 then false else if k ≤ 4 then w.getLsbD (k + 7) else if k ≤ 10 then w.getLsbD (k + 20)
      else if k = 11 then w.getLsbD 7 else w.getLsbD 31 := by
  rw [getLsbD_sext _ hk]
  split
  · exact getLsbD_immBOf w (by omega)
  · simp (disch := omega) only [getLsbD_immBOf, if_neg]

theorem getLsbD_sext_immJOf (w : Word) {k : Nat} (hk : k < 32) :
    (sext (immJOf w)).getLsbD k =
      if k = 0 then false else if k ≤ 10 then w.getLsbD (k + 20) else if k = 11 then w.getLsbD 20
      else if k ≤ 19 then w.getLsbD k else w.getLsbD 31 := by
  rw [getLsbD_sext _ hk]
  split
  · exact getLsbD_immJOf w (by omega)
  · simp (disch := omega) only [getLsbD_immJOf, if_neg]

/-- Settles O33: the bits by layout and sign extension; the value is that of a 12-bit immediate. -/
theorem immediatesOfIAndS : Obligations.ImmediatesOfIAndS := by
  intro w
  rw [toInt_sext (immIOf w) (by decide), toInt_sext (immSOf w) (by decide)]
  exact ⟨fun k hk => getLsbD_sext_immIOf w hk, fun k hk => getLsbD_sext_immSOf w hk,
    le_toInt _, toInt_le, le_toInt _, toInt_le⟩

/-- Settles O34: the bits as for I and S; the greatest 13-bit and 21-bit values are odd, so evenness lowers the upper bounds
by one. -/
theorem immediatesOfBAndJ : Obligations.ImmediatesOfBAndJ := by
  intro w
  have evenB := toInt_emod_two _ (immBOf_even w)
  have evenJ := toInt_emod_two _ (immJOf_even w)
  have maxB : (immBOf w).toInt ≤ 4095 := toInt_le
  have maxJ : (immJOf w).toInt ≤ 1048575 := toInt_le
  rw [toInt_sext (immBOf w) (by decide), toInt_sext (immJOf w) (by decide)]
  exact ⟨fun k hk => getLsbD_sext_immBOf w hk, fun k hk => getLsbD_sext_immJOf w hk,
    le_toInt _, by omega, evenB, le_toInt _, by omega, evenJ⟩

end Sys2Proof.Machine
end

section
/-! ### The decoder and the match and mask table say the same (30_encoding.md R94 to R101)

Both are compared with `RowKey`, the field values of a row: the table through its masks, the decoder by its branches. -/

namespace Sys2Proof

/-- The fields the rows of R94 to R99 are keyed on have the values of row `m`. -/
def RowKey (w : Word) : Mnemonic → Prop
  | .add => opcodeOf w = 0x33#7 ∧ funct3Of w = 0b000#3 ∧ funct7Of w = 0x00#7
  | .sub => opcodeOf w = 0x33#7 ∧ funct3Of w = 0b000#3 ∧ funct7Of w = 0x20#7
  | .xor => opcodeOf w = 0x33#7 ∧ funct3Of w = 0b100#3 ∧ funct7Of w = 0x00#7
  | .or => opcodeOf w = 0x33#7 ∧ funct3Of w = 0b110#3 ∧ funct7Of w = 0x00#7
  | .and => opcodeOf w = 0x33#7 ∧ funct3Of w = 0b111#3 ∧ funct7Of w = 0x00#7
  | .addi => opcodeOf w = 0x13#7 ∧ funct3Of w = 0b000#3
  | .xori => opcodeOf w = 0x13#7 ∧ funct3Of w = 0b100#3
  | .ori => opcodeOf w = 0x13#7 ∧ funct3Of w = 0b110#3
  | .andi => opcodeOf w = 0x13#7 ∧ funct3Of w = 0b111#3
  | .lw => opcodeOf w = 0x03#7 ∧ funct3Of w = 0b010#3
  | .sw => opcodeOf w = 0x23#7 ∧ funct3Of w = 0b010#3
  | .beq => opcodeOf w = 0x63#7 ∧ funct3Of w = 0b000#3
  | .bne => opcodeOf w = 0x63#7 ∧ funct3Of w = 0b001#3
  | .jal => opcodeOf w = 0x6F#7
  | .halt => opcodeOf w = 0x7F#7

/-- The instruction of row `m` with its operands read from the word's fields. -/
def instrOf (w : Word) : Mnemonic → Instr
  | .add => .add (rdOf w) (rs1Of w) (rs2Of w)
  | .sub => .sub (rdOf w) (rs1Of w) (rs2Of w)
  | .xor => .xor (rdOf w) (rs1Of w) (rs2Of w)
  | .or => .or (rdOf w) (rs1Of w) (rs2Of w)
  | .and => .and (rdOf w) (rs1Of w) (rs2Of w)
  | .addi => .addi (rdOf w) (rs1Of w) (immIOf w)
  | .xori => .xori (rdOf w) (rs1Of w) (immIOf w)
  | .ori => .ori (rdOf w) (rs1Of w) (immIOf w)
  | .andi => .andi (rdOf w) (rs1Of w) (immIOf w)
  | .lw => .lw (rdOf w) (rs1Of w) (immIOf w)
  | .sw => .sw (rs1Of w) (rs2Of w) (immSOf w)
  | .beq => .beq (rs1Of w) (rs2Of w) (immBOf w)
  | .bne => .bne (rs1Of w) (rs2Of w) (immBOf w)
  | .jal => .jal (rdOf w) (immJOf w)
  | .halt => .halt (ignoredOf w)

/-- Every row of the table matches exactly the words its fields key. -/
theorem row_matches_iff_rowKey (w : Word) {r : OpRow} (hr : r ∈ opcodeTable) :
    w &&& r.mask = r.match_ ↔ RowKey w r.mnemonic := by
  simp only [opcodeTable, decoderRows, List.cons_append, List.nil_append, List.mem_cons, List.not_mem_nil,
    or_false] at hr
  rcases hr with rfl | rfl | rfl | rfl | rfl | hr
  · exact row_R 0x00#7 0b000#3 0x33#7 (by decide)
  · exact row_R 0x20#7 0b000#3 0x33#7 (by decide)
  · exact row_R 0x00#7 0b100#3 0x33#7 (by decide)
  · exact row_R 0x00#7 0b110#3 0x33#7 (by decide)
  · exact row_R 0x00#7 0b111#3 0x33#7 (by decide)
  rcases hr with rfl | rfl | rfl | rfl | rfl | rfl | rfl | rfl | rfl | rfl
  · exact row_I 0b000#3 0x13#7 (by decide)
  · exact row_I 0b100#3 0x13#7 (by decide)
  · exact row_I 0b110#3 0x13#7 (by decide)
  · exact row_I 0b111#3 0x13#7 (by decide)
  · exact row_I 0b010#3 0x03#7 (by decide)
  · exact row_I 0b010#3 0x23#7 (by decide)
  · exact row_I 0b000#3 0x63#7 (by decide)
  · exact row_I 0b001#3 0x63#7 (by decide)
  · exact row_J 0x6F#7 (by decide)
  · exact row_J 0x7F#7 (by decide)

/-- A keyed word decodes to its row's instruction. -/
theorem decode_of_rowKey {w : Word} {m : Mnemonic} (h : RowKey w m) : decode w = .ok (instrOf w m) := by
  cases m with
  | add | sub | xor | or | and =>
    obtain ⟨hop, h3, h7⟩ := h
    simp [decode_arith hop, decodeArith, h3, h7, instrOf]
  | addi | xori | ori | andi =>
    obtain ⟨hop, h3⟩ := h
    simp [decode_arithImm hop, decodeArithImm, h3, instrOf]
  | lw =>
    obtain ⟨hop, h3⟩ := h
    exact (decode_load hop).trans (if_pos h3)
  | sw =>
    obtain ⟨hop, h3⟩ := h
    exact (decode_store hop).trans (if_pos h3)
  | beq | bne =>
    obtain ⟨hop, h3⟩ := h
    simp [decode_branch hop, decodeBranch, h3, instrOf]
  | jal => exact decode_jump h
  | halt => exact decode_halt h

/-- What decodes is keyed to its row: no class decoder accepts a word outside R94 to R99. -/
theorem rowKey_of_decode {w : Word} {i : Instr} (h : decode w = .ok i) : RowKey w i.mnemonic := by
  unfold decode at h
  split_ifs at h with hHalt hArith hArithImm hLoad hStore hBranch hJump
  · cases h
    exact hHalt
  · unfold decodeArith at h
    split_ifs at h <;> cases h <;> exact ⟨hArith, by assumption⟩
  · unfold decodeArithImm at h
    split_ifs at h <;> cases h <;> exact ⟨hArithImm, by assumption⟩
  · unfold decodeLoad at h
    split_ifs at h with hKey
    cases h
    exact ⟨hLoad, hKey⟩
  · unfold decodeStore at h
    split_ifs at h with hKey
    cases h
    exact ⟨hStore, hKey⟩
  · unfold decodeBranch at h
    split_ifs at h <;> cases h <;> exact ⟨hBranch, by assumption⟩
  · cases h
    exact hJump

/-- A keyed word is the encoding of its row's instruction. -/
theorem encode_instrOf {w : Word} {m : Mnemonic} (h : RowKey w m) : encode (instrOf w m) = w := by
  cases m with
  | add | sub | xor | or | and =>
    obtain ⟨hop, h3, h7⟩ := h
    rw [instrOf, encode, ← h3, ← h7, encodeR_fields w hop]
  | addi | xori | ori | andi | lw =>
    obtain ⟨hop, h3⟩ := h
    rw [instrOf, encode, ← h3, ← hop, encodeI_fields]
  | sw =>
    obtain ⟨hop, h3⟩ := h
    rw [instrOf, encode, ← h3, encodeS_fields w hop]
  | beq | bne =>
    obtain ⟨hop, h3⟩ := h
    rw [instrOf, encode, ← h3, encodeB_fields w hop]
  | jal => exact encodeJ_fields w h
  | halt => exact encodeHalt_fields w h

/-- The row the match and mask decoder finds keys the word. -/
theorem rowKey_of_decoderRowOf {w : Word} {m : Mnemonic} (h : decoderRowOf w = some m) : RowKey w m := by
  obtain ⟨r, hr, rfl⟩ := Option.map_eq_some_iff.mp h
  have hmatch : w &&& r.mask = r.match_ := by simpa [rowMatches] using List.find?_some hr
  exact (row_matches_iff_rowKey w (List.mem_append_left _ (List.mem_of_find?_eq_some hr))).mp hmatch

@[simp] theorem instrOf_mnemonic (w : Word) (m : Mnemonic) : (instrOf w m).mnemonic = m := by
  cases m <;> rfl

/-- At most one row keys a word, because a word decodes to one instruction (R101). -/
theorem rowKey_unique {w : Word} {m n : Mnemonic} (hm : RowKey w m) (hn : RowKey w n) : m = n := by
  have hinstr : instrOf w m = instrOf w n := Except.ok.inj ((decode_of_rowKey hm).symm.trans (decode_of_rowKey hn))
  simpa using congrArg Instr.mnemonic hinstr

/-- The match and mask decoder finds the row that keys the word, the sentinel's excepted, which it does not hold. -/
theorem decoderRowOf_of_rowKey {w : Word} {m : Mnemonic} (hkey : RowKey w m) (hm : m ≠ .halt) :
    decoderRowOf w = some m := by
  have hrow : ∃ r ∈ decoderRows, r.mnemonic = m := by cases m <;> simp [decoderRows] at hm ⊢
  obtain ⟨r, hr, rfl⟩ := hrow
  have hmatch : w &&& r.mask = r.match_ := (row_matches_iff_rowKey w (List.mem_append_left _ hr)).mpr hkey
  cases hfound : decoderRowOf w with
  | none => exact absurd (beq_iff_eq.mpr hmatch) (List.find?_eq_none.mp (Option.map_eq_none_iff.mp hfound) r hr)
  | some n => rw [rowKey_unique (rowKey_of_decoderRowOf hfound) hkey]

/-- The match and mask decoder finds no row for what the decoder rejects. -/
theorem decoderRowOf_of_decode_error {w : Word} {e : DecodeReject} (h : decode w = .error e) :
    decoderRowOf w = none := by
  cases hrow : decoderRowOf w with
  | none => rfl
  | some m => exact absurd (h.symm.trans (decode_of_rowKey (rowKey_of_decoderRowOf hrow))) (by simp)

end Sys2Proof
end

section
/-! ### The cycle of the datapath, block by block (40_datapath.md R120 to R148) -/

namespace Sys2Proof.Machine

/-- Steps 2 to 6 of R120 for a decoded word: the record is executed, and a refused access is a fault with that word. -/
def State.executeRecord (s : State) (w : Word) (d : ExRecord) : State :=
  match s.memoryAccess d (s.execute d) with
  | none => s.takeFault .dataAddressOutOfRange w
  | some (ld, t) => (t.writeback d (s.execute d) ld).retire (s.execute d).npc

theorem executeRecord_refused {s : State} {w : Word} {d : ExRecord} (h : s.memoryAccess d (s.execute d) = none) :
    s.executeRecord w d = s.takeFault .dataAddressOutOfRange w := by
  simp only [State.executeRecord, h]

theorem executeRecord_accessed {s t : State} {w ld : Word} {d : ExRecord}
    (h : s.memoryAccess d (s.execute d) = some (ld, t)) :
    s.executeRecord w d = (t.writeback d (s.execute d) ld).retire (s.execute d).npc := by
  simp only [State.executeRecord, h]

/-! One equation per kind of cycle. -/

theorem datapathCycle_halted {s : State} (h : s.run = .halted) : s.datapathCycle = s := if_pos h

theorem datapathCycle_notFound {s : State} (h : s.run = .running) (hf : s.ifetch s.pc = none) :
    s.datapathCycle = s.endOfImage := by
  simp only [State.datapathCycle, h, hf, reduceCtorEq, if_false]
  rfl

theorem datapathCycle_sentinel {s : State} {w : Word} (h : s.run = .running) (hf : s.ifetch s.pc = some w)
    (hop : opcodeOf w = 0x7F#7) : s.datapathCycle = s.haltNormally .sentinel := by
  simp only [State.datapathCycle, h, hf, reduceCtorEq, if_false, if_pos hop]
  rfl

theorem datapathCycle_illegal {s : State} {w : Word} (h : s.run = .running) (hf : s.ifetch s.pc = some w)
    (hop : opcodeOf w ≠ 0x7F#7) (hd : exOf w = none) : s.datapathCycle = s.decodeFault w := by
  simp only [State.datapathCycle, h, hf, reduceCtorEq, if_false, if_neg hop, hd]
  rfl

theorem datapathCycle_executed {s : State} {w : Word} {d : ExRecord} (h : s.run = .running)
    (hf : s.ifetch s.pc = some w) (hop : opcodeOf w ≠ 0x7F#7) (hd : exOf w = some d) :
    s.datapathCycle = s.executeRecord w d := by
  simp only [State.datapathCycle, h, hf, reduceCtorEq, if_false, if_neg hop, hd]
  rfl

/-! One equation per class: what its control signals make the blocks do. -/

theorem executeRecord_arith (s : State) (w : Word) (op : AluOp) :
    s.executeRecord w (exOfClass w (.arith op)) = s.arith op (rdOf w) (rs1Of w) (rs2Of w) := rfl

theorem executeRecord_arithImm (s : State) (w : Word) (op : AluOp) :
    s.executeRecord w (exOfClass w (.arithImm op)) = s.arithImm op (rdOf w) (rs1Of w) (immIOf w) := rfl

theorem executeRecord_jump (s : State) (w : Word) :
    s.executeRecord w (exOfClass w .jump) = (s.setReg (rdOf w) (s.pc + 4#32)).retire (s.pc + sext (immJOf w)) := rfl

/-- The branch unit's `taken` is the condition of R130. -/
theorem execute_branch_npc (s : State) (w : Word) (c : BCond) :
    (s.execute (exOfClass w (.branch c))).npc =
      if condHolds c (alu .sub (s.getReg (rs1Of w)) (s.getReg (rs2Of w))) then s.pc + sext (immBOf w)
      else s.pc + 4#32 := by
  cases c with
  | eq => simp [State.execute, exOfClass, condHolds, zeroResult]
  | ne => simp [State.execute, exOfClass, condHolds, zeroResult]
  | always => rfl

theorem executeRecord_branch (s : State) (w : Word) (c : BCond) :
    s.executeRecord w (exOfClass w (.branch c)) = s.branch c (rs1Of w) (rs2Of w) (immBOf w) :=
  congrArg s.retire (execute_branch_npc s w c)

theorem execLw_eq_executeRecord (s : State) {w : Word} (hw : encode (.lw (rdOf w) (rs1Of w) (immIOf w)) = w) :
    execLw (rdOf w) (rs1Of w) (immIOf w) s = .next (s.executeRecord w (exOfClass w .load)) := by
  cases h : s.memRead (s.effAddr (rs1Of w) (immIOf w)) with
  | none =>
    rw [executeRecord_refused (d := exOfClass w .load) h]
    simp only [execLw, h, hw]
  | some p =>
    rw [executeRecord_accessed (d := exOfClass w .load) h]
    simp only [execLw, h]
    rfl

theorem execSw_eq_executeRecord (s : State) {w : Word} (hw : encode (.sw (rs1Of w) (rs2Of w) (immSOf w)) = w) :
    execSw (rs1Of w) (rs2Of w) (immSOf w) s = .next (s.executeRecord w (exOfClass w .store)) := by
  cases h : s.memWrite (s.effAddr (rs1Of w) (immSOf w)) (s.getReg (rs2Of w)) with
  | none =>
    rw [executeRecord_refused (d := exOfClass w .store) (congrArg (Option.map _) h)]
    simp only [execSw, h, hw]
  | some t =>
    rw [executeRecord_accessed (d := exOfClass w .store) (congrArg (Option.map _) h)]
    simp only [execSw, h]
    rfl

/-- Row by row, the instruction of a keyed word does what the blocks do under its class's control signals. -/
theorem exec_instrOf (s : State) {w : Word} {m : Mnemonic} {c : InstrClass} (hkey : RowKey w m)
    (hc : classOf m = some c) : exec (instrOf w m) s = .next (s.executeRecord w (exOfClass w c)) := by
  have hw := encode_instrOf hkey
  cases m with
  | add | sub | xor | or | and =>
    cases hc
    rw [executeRecord_arith]
    rfl
  | addi | xori | ori | andi =>
    cases hc
    rw [executeRecord_arithImm]
    rfl
  | lw =>
    cases hc
    exact execLw_eq_executeRecord s hw
  | sw =>
    cases hc
    exact execSw_eq_executeRecord s hw
  | beq | bne =>
    cases hc
    rw [executeRecord_branch]
    rfl
  | jal =>
    cases hc
    rw [executeRecord_jump]
    rfl
  | halt => cases hc

theorem exists_classOf {m : Mnemonic} (h : m ≠ .halt) : ∃ c, classOf m = some c := by
  cases m with
  | halt => exact absurd rfl h
  | _ => exact ⟨_, rfl⟩

/-- `Decode(instr)` of a keyed word is the record of its row's class. -/
theorem exOf_of_rowKey {w : Word} {m : Mnemonic} {c : InstrClass} (hkey : RowKey w m) (hc : classOf m = some c) :
    exOf w = some (exOfClass w c) := by
  have hm : m ≠ .halt := by
    rintro rfl
    cases hc
  simp only [exOf, decoderRowOf_of_rowKey hkey hm, Option.bind_some, hc, Option.map_some]

/-- `Decode(instr)` raises `DecodeError` on what the decoder rejects. -/
theorem exOf_of_decode_error {w : Word} {e : DecodeReject} (h : decode w = .error e) : exOf w = none := by
  simp only [exOf, decoderRowOf_of_decode_error h, Option.bind_none, Option.map_none]

/-- A cycle that fetches a word other than the sentinel: both decoders read the same row, and its instruction does what
the blocks do; or both reject the word. -/
theorem step_eq_datapathCycle_of_not_sentinel {s : State} {w : Word} (h : s.run = .running)
    (hf : s.ifetch s.pc = some w) (hop : opcodeOf w ≠ 0x7F#7) : step s = .next s.datapathCycle := by
  cases hdec : decode w with
  | error e => rw [step_illegal h hf hdec, datapathCycle_illegal h hf hop (exOf_of_decode_error hdec)]
  | ok i =>
    have hkey : RowKey w i.mnemonic := rowKey_of_decode hdec
    have hm : i.mnemonic ≠ .halt := fun hm => hop (by rwa [hm] at hkey)
    obtain ⟨c, hc⟩ := exists_classOf hm
    rw [step_decoded h hf (decode_of_rowKey hkey), exec_instrOf s hkey hc,
      datapathCycle_executed h hf hop (exOf_of_rowKey hkey hc)]

/-- Settles O28, by the kind of the cycle: halted, nothing fetched, the sentinel, any other word. -/
theorem stepIsTheDatapathCycle : Obligations.StepIsTheDatapathCycle := by
  intro s
  cases hr : s.run with
  | halted => rw [step_halted hr, datapathCycle_halted hr]
  | running =>
    cases hf : s.ifetch s.pc with
    | none => rw [step_notFound hr hf, datapathCycle_notFound hr hf]
    | some w =>
      by_cases hop : opcodeOf w = 0x7F#7
      · rw [step_decoded hr hf (decode_halt hop), datapathCycle_sentinel hr hf hop]
        rfl
      · exact step_eq_datapathCycle_of_not_sentinel hr hf hop

end Sys2Proof.Machine
end

section
/-! ### A halted cycle (40_datapath.md R121) -/

namespace Sys2Proof.Machine

theorem traceRecord_halted {s : State} (h : s.run = .halted) : s.traceRecord = none := by
  simp only [State.traceRecord, h]

/-- A state that steps to itself is where any number of cycles ends. -/
theorem run_of_step_eq_self {s : State} (h : step s = .next s) (n : Nat) : Host.Core.run core n s = .next s := by
  induction n with
  | zero => rfl
  | succ n ih =>
    have hcore : core.step s = .next s := h
    simp only [Host.Core.run, hcore, ih]

/-- Settles O21: no field changes, so the same cycle repeats; no record of an instruction, so no access. -/
theorem haltedCycleChangesNothing : Obligations.HaltedCycleChangesNothing := by
  intro s n h
  have hstep := step_halted h
  have hex := cycleEx_halted h
  exact ⟨hstep, hex, dmemRequest_of_none hex, traceRecord_halted h, run_of_step_eq_self hstep n⟩

end Sys2Proof.Machine
end

section
/-! ### ADD and SUB (41_r_type_arith.md R160, R161) -/

namespace Sys2Proof.Machine

/-- A word that matches a row of the opcode table decodes to the row's instruction, its operands the word's fields. -/
theorem decode_of_row {w : Word} {r : OpRow} (hr : r ∈ opcodeTable) (h : w &&& r.mask = r.match_) :
    decode w = .ok (instrOf w r.mnemonic) :=
  decode_of_rowKey ((row_matches_iff_rowKey w hr).mp h)

/-- One register write and a retirement complete, and nothing else changes: the frame of R-type, I-type and JAL. -/
theorem completes_setReg_retire (s : State) (rd : RegIdx) (v npc : Word) :
    Completes (.next ((s.setReg rd v).retire npc)) (fun t => Retired s t npc ∧ OnlyReg s t rd v ∧ SameData s t) :=
  ⟨_, rfl, retired_setReg s rd v npc, onlyReg_setReg_retire s rd v npc, sameData_setReg_retire s rd v npc⟩

/-- Settles O10: the match and mask of each word are a row of the opcode table, and each instruction is one register write
of the ALU's result and a retirement to the next word. -/
theorem addAndSubComplete : Obligations.AddAndSubComplete := by
  refine ⟨fun w h => ?_, fun w h => ?_, fun rd rs1 rs2 s => ⟨?_, ?_⟩⟩
  · exact decode_of_row (r := ⟨.add, 0x00000033#32, 0xFE00707F#32⟩) (by decide) h
  · exact decode_of_row (r := ⟨.sub, 0x40000033#32, 0xFE00707F#32⟩) (by decide) h
  · exact completes_setReg_retire s rd (s.getReg rs1 + s.getReg rs2) (s.pc + 4#32)
  · exact completes_setReg_retire s rd (s.getReg rs1 - s.getReg rs2) (s.pc + 4#32)

end Sys2Proof.Machine
end

section
/-! ### JAL (44_branch_jump.md R192) -/

namespace Sys2Proof.Machine

/-- JAL is one register write and a retirement: the link and the target are both computed from the pc before the write. -/
theorem exec_jal (rd : RegIdx) (imm : BitVec 21) (s : State) :
    exec (.jal rd imm) s = .next ((s.setReg rd (s.pc + 4#32)).retire (s.pc + sext imm)) := rfl

/-- Settles O17: JAL's match and mask are a row of the opcode table, whose class is the jump with the listed signals; the
instruction is one register write of the link and a retirement to the target. -/
theorem jumpAndLinkCompletes : Obligations.JumpAndLinkCompletes := by
  refine ⟨fun w h => ?_, fun rd imm s => ?_⟩
  · have hkey : RowKey w .jal :=
      (row_matches_iff_rowKey w (r := ⟨.jal, 0x0000006F#32, 0x0000007F#32⟩) (by decide)).mp h
    exact ⟨decode_of_rowKey hkey, exOfClass w .jump, exOf_of_rowKey hkey rfl, rfl, rfl, rfl, rfl, rfl, rfl, rfl⟩
  · rw [exec_jal]
    exact completes_setReg_retire s rd (s.pc + 4#32) (s.pc + sext imm)

end Sys2Proof.Machine
end

section
/-! ### The normal halts (45_halt.md R200, R201) -/

namespace Sys2Proof.Machine

theorem exec_halt (ignored : BitVec 25) (s : State) : exec (.halt ignored) s = .next (s.haltNormally .sentinel) := rfl

theorem exec_halt_completes (ignored : BitVec 25) (s : State) :
    Completes (exec (.halt ignored) s) (fun t => HaltedNormally s t .sentinel) :=
  ⟨_, exec_halt ignored s, haltedNormally_haltNormally s .sentinel⟩

/-- Settles O18: the sentinel's match and mask are a row of the opcode table, so the step is `exec` of HALT, whatever the
ignored bits are. -/
theorem haltSentinelHalts : Obligations.HaltSentinelHalts := by
  refine ⟨fun s w hrun hfetch hmask => ?_, exec_halt_completes⟩
  have hdecode : decode w = .ok (.halt (ignoredOf w)) :=
    decode_of_row (r := ⟨.halt, 0x0000007F#32, 0x0000007F#32⟩) (by decide) hmask
  rw [step_decoded hrun hfetch hdecode]
  exact exec_halt_completes (ignoredOf w) s

/-- Settles O19: the condition on the pc is exactly that the fetch finds no word, and that cycle is the end-of-image
halt. -/
theorem endOfImageHalts : Obligations.EndOfImageHalts := by
  intro s hrun hpast
  have hfetch : s.ifetch s.pc = none := ifetch_eq_none.mpr hpast
  exact ⟨_, step_notFound hrun hfetch, haltedNormally_haltNormally s .endOfImage⟩

end Sys2Proof.Machine
end

section
/-! ### Encoder and decoder are inverse (30_encoding.md sections 2 to 5) -/

namespace Sys2Proof

/-- The word of an instruction is keyed to the instruction's row, odd branch offsets included: the implicit bit is in no
field of the key. -/
theorem rowKey_encode (i : Instr) : RowKey (encode i) i.mnemonic := by
  cases i with
  | add | sub | xor | or | and => exact ⟨opcodeOf_encodeR .., funct3Of_encodeR .., funct7Of_encodeR ..⟩
  | addi | xori | ori | andi | lw => exact ⟨opcodeOf_encodeI .., funct3Of_encodeI ..⟩
  | sw => exact ⟨opcodeOf_encodeS .., funct3Of_encodeS ..⟩
  | beq | bne => exact ⟨opcodeOf_encodeB .., funct3Of_encodeB ..⟩
  | jal => exact opcodeOf_encodeJ ..
  | halt => exact opcodeOf_halt ..

/-- The fields of the word of a well-formed instruction are its operands. -/
theorem instrOf_encode {i : Instr} (h : i.wf = true) : instrOf (encode i) i.mnemonic = i := by
  cases i with
  | add | sub | xor | or | and | addi | xori | ori | andi | lw | sw | halt => simp [instrOf, encode, Instr.mnemonic]
  | beq | bne => simp [instrOf, encode, Instr.mnemonic, immBOf_encodeB _ _ _ _ ((Bool.not_eq_true' _).mp h)]
  | jal => simp [instrOf, encode, Instr.mnemonic, immJOf_encodeJ _ _ ((Bool.not_eq_true' _).mp h)]

theorem decode_encode {i : Instr} (h : i.wf = true) : decode (encode i) = .ok i := by
  rw [decode_of_rowKey (rowKey_encode i), instrOf_encode h]

/-- Four bytes that make up a decodable word are read as its instruction, whatever follows them. -/
theorem decodeBytes_of_decode {b0 b1 b2 b3 : Byte} {i : Instr} (h : decode (wordOfBytes b0 b1 b2 b3) = .ok i)
    (rest : List Byte) : decodeBytes (b0 :: b1 :: b2 :: b3 :: rest) = .ok (i, rest) := by
  simp only [decodeBytes, h]

theorem decodeBytes_bytesOfWord {w : Word} {i : Instr} (h : decode w = .ok i) (rest : List Byte) :
    decodeBytes (bytesOfWord w ++ rest) = .ok (i, rest) :=
  decodeBytes_of_decode (by rwa [Machine.wordOfBytes_byteOfWord]) rest

/-- Settles O31: the word of an instruction is keyed to its row and its fields are the operands; its bytes make up that
word. -/
theorem decodeOfEncode : Obligations.DecodeOfEncode := fun _ rest h =>
  ⟨decode_encode h, decodeBytes_bytesOfWord (decode_encode h) rest⟩

/-- What decodes is the instruction of a row that keys the word. -/
theorem exists_rowKey_of_decode {w : Word} {i : Instr} (h : decode w = .ok i) : ∃ m, RowKey w m ∧ i = instrOf w m :=
  ⟨i.mnemonic, rowKey_of_decode h, Except.ok.inj (h.symm.trans (decode_of_rowKey (rowKey_of_decode h)))⟩

/-- An instruction read from a word's fields is well-formed: the B and J immediates are laid out with a low zero. -/
theorem instrOf_wf (w : Word) (m : Mnemonic) : (instrOf w m).wf = true := by
  cases m with
  | beq | bne => exact congrArg not (immBOf_even w)
  | jal => exact congrArg not (immJOf_even w)
  | _ => rfl

theorem wf_of_decode {w : Word} {i : Instr} (h : decode w = .ok i) : i.wf = true := by
  obtain ⟨m, -, rfl⟩ := exists_rowKey_of_decode h
  exact instrOf_wf w m

theorem encode_of_decode {w : Word} {i : Instr} (h : decode w = .ok i) : encode i = w := by
  obtain ⟨m, hkey, rfl⟩ := exists_rowKey_of_decode h
  exact encode_instrOf hkey

/-- Settles O32: a decoded instruction is its row's, with the word's fields as operands. -/
theorem encodeOfDecode : Obligations.EncodeOfDecode := fun _ _ h => ⟨wf_of_decode h, encode_of_decode h⟩

theorem exists_row (m : Mnemonic) : ∃ r ∈ opcodeTable, r.mnemonic = m := by
  cases m <;> decide

/-- A word is keyed to a mnemonic exactly when it matches a row of that mnemonic. -/
theorem rowKey_iff_matches_row (w : Word) (m : Mnemonic) :
    RowKey w m ↔ ∃ r ∈ opcodeTable, r.mnemonic = m ∧ w &&& r.mask = r.match_ := by
  constructor
  · intro hkey
    obtain ⟨r, hr, rfl⟩ := exists_row m
    exact ⟨r, hr, rfl, (row_matches_iff_rowKey w hr).mpr hkey⟩
  · rintro ⟨r, hr, rfl, hmatch⟩
    exact (row_matches_iff_rowKey w hr).mp hmatch

/-- Settles O30: both sides say that the word's fields are keyed to the mnemonic. -/
theorem decoderFollowsTheOpcodeTable : Obligations.DecoderFollowsTheOpcodeTable := by
  intro w m
  rw [← rowKey_iff_matches_row]
  constructor
  · rintro ⟨i, hdec, rfl⟩
    exact rowKey_of_decode hdec
  · intro hkey
    exact ⟨instrOf w m, decode_of_rowKey hkey, instrOf_mnemonic w m⟩

/-- The decoder rejects a word that matches no row. -/
theorem decode_error_of_no_row {w : Word} (h : ∀ r ∈ opcodeTable, w &&& r.mask ≠ r.match_) :
    ∃ e, decode w = .error e := by
  cases hdec : decode w with
  | error e => exact ⟨e, rfl⟩
  | ok i =>
    obtain ⟨r, hr, -, hmatch⟩ := (rowKey_iff_matches_row w i.mnemonic).mp (rowKey_of_decode hdec)
    exact absurd hmatch (h r hr)

/-- The table has one row a mnemonic. -/
theorem row_eq_of_mnemonic_eq : ∀ r ∈ opcodeTable, ∀ q ∈ opcodeTable, r.mnemonic = q.mnemonic → r = q := by
  decide

/-- Settles O29: a word that matches two rows is keyed to both mnemonics, which are then one, and so are the rows. -/
theorem opcodeRowsAreDisjoint : Obligations.OpcodeRowsAreDisjoint := by
  intro w r hr q hq hrMatch hqMatch
  exact row_eq_of_mnemonic_eq r hr q hq
    (rowKey_unique ((row_matches_iff_rowKey w hr).mp hrMatch) ((row_matches_iff_rowKey w hq).mp hqMatch))

/-- Settles O36: the model decodes each of the nine words. -/
theorem specWordsDecode : Obligations.SpecWordsDecode := by
  refine ⟨?_, ?_, ?_, ?_, ?_, ?_, ?_, ?_, ?_⟩ <;> decide

end Sys2Proof

namespace Sys2Proof.Machine

/-- The decoder's record for the word of an instruction is that of the instruction's class. -/
theorem exOf_encode {i : Instr} {c : InstrClass} {d : ExRecord} (hc : classOf i.mnemonic = some c)
    (hd : exOfClass (encode i) c = d) : exOf (encode i) = some d := by
  rw [exOf_of_rowKey (rowKey_encode i) hc, hd]

theorem exOfClass_encodeR (f7 : BitVec 7) (f3 : BitVec 3) (rd rs1 rs2 : RegIdx) (op : AluOp) :
    exOfClass (encodeR f7 rs2 rs1 f3 rd) (.arith op) =
      ⟨rs1, rs2, rd, 0#32, false, false, false, true, false, op, none⟩ := by
  simp [exOfClass]

theorem exOfClass_encodeI (op7 : BitVec 7) (f3 : BitVec 3) (rd rs1 : RegIdx) (imm : BitVec 12) (op : AluOp) :
    exOfClass (encodeI imm rs1 f3 rd op7) (.arithImm op) =
      ⟨rs1, 0#5, rd, sext imm, true, false, false, true, false, op, none⟩ := by
  simp [exOfClass]

theorem exOfClass_encodeB {imm : BitVec 13} (heven : imm.getLsbD 0 = false) (f3 : BitVec 3) (rs1 rs2 : RegIdx)
    (c : BCond) :
    exOfClass (encodeB imm rs2 rs1 f3) (.branch c) =
      ⟨rs1, rs2, 0#5, sext imm, false, false, false, false, true, .sub, some c⟩ := by
  simp [exOfClass, immBOf_encodeB imm rs2 rs1 f3 heven]

/-- `Decode(instr)` has no record for the sentinel, whose row is not the decoder's. -/
theorem exOf_of_halt {w : Word} (h : RowKey w .halt) : exOf w = none := by
  cases hrow : decoderRowOf w with
  | none => simp only [exOf, hrow, Option.bind_none, Option.map_none]
  | some m =>
    have hm : m = .halt := rowKey_unique (rowKey_of_decoderRowOf hrow) h
    simp only [exOf, hrow, hm, Option.bind_some, classOf, Option.map_none]

/-- Settles O35, class by class: the record of the class, with the fields of the encoded word. -/
theorem controlSignalsPerClass : Obligations.ControlSignalsPerClass := by
  refine ⟨fun op i rd rs1 rs2 hmem => ?_, fun op i rd rs1 imm hmem => ?_, fun rd rs1 imm => ?_,
    fun rs1 rs2 imm => ?_, fun rs1 rs2 imm heven => ⟨?_, ?_⟩, fun rd imm heven => ?_, fun ignored => ?_⟩
  · simp only [List.mem_cons, Prod.mk.injEq, List.not_mem_nil, or_false] at hmem
    rcases hmem with ⟨rfl, rfl⟩ | ⟨rfl, rfl⟩ | ⟨rfl, rfl⟩ | ⟨rfl, rfl⟩ | ⟨rfl, rfl⟩ <;>
      exact exOf_encode rfl (exOfClass_encodeR ..)
  · simp only [List.mem_cons, Prod.mk.injEq, List.not_mem_nil, or_false] at hmem
    rcases hmem with ⟨rfl, rfl⟩ | ⟨rfl, rfl⟩ | ⟨rfl, rfl⟩ | ⟨rfl, rfl⟩ <;>
      exact exOf_encode rfl (exOfClass_encodeI ..)
  · exact exOf_encode rfl (by simp [exOfClass, encode])
  · exact exOf_encode rfl (by simp [exOfClass, encode])
  · exact exOf_encode rfl (exOfClass_encodeB heven ..)
  · exact exOf_encode rfl (exOfClass_encodeB heven ..)
  · exact exOf_encode rfl (by simp [exOfClass, encode, immJOf_encodeJ imm rd heven])
  · exact exOf_of_halt (rowKey_encode (.halt ignored))

end Sys2Proof.Machine
end

section
/-! ### Registers and the ALU (10_state.md section 1, 40_datapath.md section 4) -/

namespace Sys2Proof.Machine

theorem getReg_setReg_same (s : State) {i : RegIdx} (v : Word) (hi : i ≠ 0#5) : (s.setReg i v).getReg i = v := by
  rw [getReg_setReg, if_pos ⟨rfl, hi⟩]

theorem getReg_setReg_of_ne (s : State) {i r : RegIdx} (v : Word) (hr : r ≠ i) :
    (s.setReg i v).getReg r = s.getReg r := by
  rw [getReg_setReg, if_neg (fun h => hr h.1)]

/-- Settles O2: what a register reads after a write; ADD computes its sum before the write. -/
theorem registerWriteReadsBack : Obligations.RegisterWriteReadsBack := fun s _ v hi =>
  ⟨getReg_setReg_same s v hi, fun _ hr => getReg_setReg_of_ne s v hr, _, rfl, getReg_setReg_same s _ hi⟩

/-- Settles O4: each operation is the word operation of its name; SUB's zero result is equality. -/
theorem aluComputesItsTable : Obligations.AluComputesItsTable := by
  intro a b
  refine ⟨BitVec.toNat_add a b, ?_, fun _ => BitVec.getLsbD_xor, fun _ => BitVec.getLsbD_or,
    fun _ => BitVec.getLsbD_and, zeroResult_sub_iff a b⟩
  have hb := b.isLt
  rw [alu, BitVec.toNat_sub]
  congr 1
  omega

end Sys2Proof.Machine
end

section
/-! ### The access primitives (20_memory.md sections 2, 3, 5 and 6) -/

namespace Sys2Proof.Machine

/-- Settles O5: the two cases of a fetch, the aligned address written as a division. -/
theorem fetchReadsTheAlignedWord : Obligations.FetchReadsTheAlignedWord := by
  intro s a
  rw [← alignDown_toNat]
  exact ⟨ifetch_eq_none.mpr, fun hle => ifetch_eq_some.mpr ⟨hle, rfl⟩⟩

/-- A word none of whose bytes is listed reads zero (R56). -/
theorem Memory.getWord_of_not_listed {m : Memory} {a : Nat} (h : ∀ c ∈ m, c.1 < a ∨ a + 4 ≤ c.1) :
    m.getWord a = 0#32 := by
  have byte : ∀ k < 4, m.get (a + k) = 0#8 := fun k hk =>
    Memory.get_of_not_listed (fun c hc => by have := h c hc; omega)
  have b0 : m.get a = 0#8 := byte 0 (by decide)
  rw [Memory.getWord, b0, byte 1 (by decide), byte 2 (by decide), byte 3 (by decide)]
  rfl

/-- Settles O6: a read is refused beyond the limit, and else answers the aligned word and the grown store. -/
theorem dataReadReturnsTheAlignedWord : Obligations.DataReadReturnsTheAlignedWord := by
  intro s a
  rw [← alignDown_toNat]
  refine ⟨memRead_eq_none.mpr, fun hle => ⟨memRead_of_le hle, fun hunlisted => ?_⟩⟩
  rw [memRead_of_le hle, Memory.getWord_of_not_listed hunlisted]
  rfl

/-- Each byte of a memory after a word is written, the most significant byte of the word lowest (R57). -/
theorem Memory.putWord_bytes (m : Memory) (a : Nat) (v : Word) :
    (m.putWord a v).get a = v.extractLsb' 24 8 ∧ (m.putWord a v).get (a + 1) = v.extractLsb' 16 8 ∧
      (m.putWord a v).get (a + 2) = v.extractLsb' 8 8 ∧ (m.putWord a v).get (a + 3) = v.extractLsb' 0 8 ∧
      ∀ b, b < a ∨ a + 4 ≤ b → (m.putWord a v).get b = m.get b := by
  have byte : ∀ k < 4, (m.putWord a v).get (a + k) = byteOfWord v k := fun k hk => by
    rw [Memory.get_putWord, if_pos ⟨by omega, by omega⟩, Nat.add_sub_cancel_left]
  refine ⟨byte 0 (by decide), byte 1 (by decide), byte 2 (by decide), byte 3 (by decide), fun b hb => ?_⟩
  rw [Memory.get_putWord, if_neg (by omega)]

/-- Settles O7: a write is refused beyond the limit, and else puts the word at the aligned address. -/
theorem dataWriteOverwritesTheAlignedWord : Obligations.DataWriteOverwritesTheAlignedWord := by
  intro s a v
  rw [← alignDown_toNat]
  refine ⟨memWrite_eq_none.mpr, fun hle => ⟨s.storeWord a v, memWrite_of_le hle, ?_⟩⟩
  obtain ⟨h0, h1, h2, h3, hapart⟩ := s.dmem.putWord_bytes (alignDown a).toNat v
  exact ⟨h0, h1, h2, h3, hapart, rfl, rfl⟩

/-- The word at where a word was stored is that word (R68). -/
theorem dmemWord_storeWord_same (s : State) {a b : Word} (v : Word) (hsame : alignDown a = alignDown b) :
    (s.storeWord a v).dmemWord b = v := by
  rw [State.dmemWord, storeWord_dmem, hsame, Memory.getWord_putWord_same]

/-- A read from another aligned word answers as before the store. -/
theorem memRead_storeWord_apart (s : State) {a b : Word} (v : Word)
    (hapart : (alignDown a).toNat + 4 ≤ (alignDown b).toNat ∨ (alignDown b).toNat + 4 ≤ (alignDown a).toNat) :
    ((s.storeWord a v).memRead b).map Prod.fst = (s.memRead b).map Prod.fst := by
  by_cases hle : (alignDown b).toNat + 4 ≤ s.cfg.dmemLimit
  · rw [memRead_of_le (s := s.storeWord a v) hle, memRead_of_le hle]
    exact congrArg some (Memory.getWord_putWord_apart _ _ _ _ hapart)
  · have hlt := Nat.lt_of_not_le hle
    rw [memRead_eq_none.mpr hlt, memRead_eq_none (s := s.storeWord a v) |>.mpr hlt]

/-- Settles O8: equal quotients are equal aligned addresses. -/
theorem storeThenLoadReturnsTheWord : Obligations.StoreThenLoadReturnsTheWord := by
  intro s a b v hsame hle
  have halign : alignDown a = alignDown b := BitVec.eq_of_toNat_eq (by rw [alignDown_toNat, alignDown_toNat, hsame])
  rw [← alignDown_toNat] at hle
  have hread : (s.storeWord a v).memRead b = some ((s.storeWord a v).dmemWord b, (s.storeWord a v).grow b) :=
    memRead_of_le (s := s.storeWord a v) (halign ▸ hle)
  rw [dmemWord_storeWord_same s v halign] at hread
  exact ⟨_, _, memWrite_of_le hle, hread⟩

/-- Settles O9: different quotients are aligned words that do not overlap. -/
theorem storeLeavesOtherWordsAlone : Obligations.StoreLeavesOtherWordsAlone := by
  intro s t a b v hne hwrite
  obtain ⟨-, rfl⟩ := memWrite_cases hwrite
  refine memRead_storeWord_apart s v ?_
  rw [alignDown_toNat, alignDown_toNat]
  omega

end Sys2Proof.Machine
end

section
/-! ### XOR, OR, AND and the immediate forms (41_r_type_arith.md, 42_i_type_arith.md) -/

namespace Sys2Proof.Machine

/-- Settles O11, as for ADD and SUB: a row of the opcode table, and one register write of the ALU's result. -/
theorem xorOrAndComplete : Obligations.XorOrAndComplete := by
  refine ⟨fun w h => ?_, fun w h => ?_, fun w h => ?_, fun rd rs1 rs2 s => ⟨?_, ?_, ?_⟩⟩
  · exact decode_of_row (r := ⟨.xor, 0x00004033#32, 0xFE00707F#32⟩) (by decide) h
  · exact decode_of_row (r := ⟨.or, 0x00006033#32, 0xFE00707F#32⟩) (by decide) h
  · exact decode_of_row (r := ⟨.and, 0x00007033#32, 0xFE00707F#32⟩) (by decide) h
  · exact completes_setReg_retire s rd (s.getReg rs1 ^^^ s.getReg rs2) (s.pc + 4#32)
  · exact completes_setReg_retire s rd (s.getReg rs1 ||| s.getReg rs2) (s.pc + 4#32)
  · exact completes_setReg_retire s rd (s.getReg rs1 &&& s.getReg rs2) (s.pc + 4#32)

/-- Settles O12: the same with the sign-extended immediate as second operand. -/
theorem immediateArithmeticCompletes : Obligations.ImmediateArithmeticCompletes := by
  refine ⟨fun w h => ?_, fun w h => ?_, fun w h => ?_, fun w h => ?_, fun rd rs1 imm s => ⟨?_, ?_, ?_, ?_⟩⟩
  · exact decode_of_row (r := ⟨.addi, 0x00000013#32, 0x0000707F#32⟩) (by decide) h
  · exact decode_of_row (r := ⟨.xori, 0x00004013#32, 0x0000707F#32⟩) (by decide) h
  · exact decode_of_row (r := ⟨.ori, 0x00006013#32, 0x0000707F#32⟩) (by decide) h
  · exact decode_of_row (r := ⟨.andi, 0x00007013#32, 0x0000707F#32⟩) (by decide) h
  · exact completes_setReg_retire s rd (s.getReg rs1 + sext imm) (s.pc + 4#32)
  · exact completes_setReg_retire s rd (s.getReg rs1 ^^^ sext imm) (s.pc + 4#32)
  · exact completes_setReg_retire s rd (s.getReg rs1 ||| sext imm) (s.pc + 4#32)
  · exact completes_setReg_retire s rd (s.getReg rs1 &&& sext imm) (s.pc + 4#32)

end Sys2Proof.Machine
end

section
/-! ### LW and SW (43_load_store.md R180, R181, 60_exceptions.md R213, R214) -/

namespace Sys2Proof.Machine

/-! Each in range and beyond the limit. -/

theorem exec_lw_of_le {s : State} {rs1 : RegIdx} {imm : BitVec 12} (rd : RegIdx)
    (h : (alignDown (s.effAddr rs1 imm)).toNat + 4 ≤ s.cfg.dmemLimit) :
    exec (.lw rd rs1 imm) s =
      .next (((s.grow (s.effAddr rs1 imm)).setReg rd (s.dmemWord (s.effAddr rs1 imm))).retire (s.pc + 4#32)) := by
  simp only [exec, execLw, memRead_of_le h]
  rfl

theorem exec_lw_of_lt {s : State} {rs1 : RegIdx} {imm : BitVec 12} (rd : RegIdx)
    (h : s.cfg.dmemLimit < (alignDown (s.effAddr rs1 imm)).toNat + 4) :
    exec (.lw rd rs1 imm) s = .next (s.takeFault .dataAddressOutOfRange (encode (.lw rd rs1 imm))) := by
  simp only [exec, execLw, memRead_eq_none.mpr h]

theorem exec_sw_of_le {s : State} {rs1 : RegIdx} {imm : BitVec 12} (rs2 : RegIdx)
    (h : (alignDown (s.effAddr rs1 imm)).toNat + 4 ≤ s.cfg.dmemLimit) :
    exec (.sw rs1 rs2 imm) s =
      .next ((s.storeWord (s.effAddr rs1 imm) (s.getReg rs2)).retire (s.pc + 4#32)) := by
  simp only [exec, execSw, memWrite_of_le h]

theorem exec_sw_of_lt {s : State} {rs1 : RegIdx} {imm : BitVec 12} (rs2 : RegIdx)
    (h : s.cfg.dmemLimit < (alignDown (s.effAddr rs1 imm)).toNat + 4) :
    exec (.sw rs1 rs2 imm) s = .next (s.takeFault .dataAddressOutOfRange (encode (.sw rs1 rs2 imm))) := by
  simp only [exec, execSw, memWrite_eq_none.mpr h]

/-! The bookkeeping of an access is that of the state before it, since an access leaves it alone. -/

theorem retired_grow_setReg (s : State) (a : Word) (rd : RegIdx) (v npc : Word) :
    Retired s (((s.grow a).setReg rd v).retire npc) npc := by
  obtain ⟨hpc, hnop, hinstret, hcycle, hrun, hcause, hfault, ⟨himem, hilen, hcfg⟩⟩ :=
    retired_setReg (s.grow a) rd v npc
  exact ⟨hpc, hnop, hinstret, hcycle, hrun, hcause, hfault, ⟨himem, hilen, hcfg⟩⟩

theorem retired_storeWord (s : State) (a v npc : Word) : Retired s ((s.storeWord a v).retire npc) npc :=
  ⟨rfl, rfl, rfl, rfl, rfl, rfl, rfl, ⟨rfl, rfl, rfl⟩⟩

/-- Settles O13: in range the load is a growth, one register write of the aligned word and a retirement. -/
theorem loadWordCompletes : Obligations.LoadWordCompletes := by
  refine ⟨fun w h => decode_of_row (r := ⟨.lw, 0x00002003#32, 0x0000707F#32⟩) (by decide) h, ?_⟩
  rintro rd rs1 imm s _ rfl hle
  obtain ⟨hbytes, hdlen⟩ := sameData_setReg_retire (s.grow (s.effAddr rs1 imm)) rd (s.dmemWord (s.effAddr rs1 imm))
    (s.pc + 4#32)
  exact ⟨_, exec_lw_of_le rd hle, retired_grow_setReg .., onlyReg_setReg_retire (s.grow _) rd _ _, hbytes, hdlen⟩

/-- Settles O14: in range the store is a word put at the aligned address and a retirement. -/
theorem storeWordCompletes : Obligations.StoreWordCompletes := by
  refine ⟨fun w h => decode_of_row (r := ⟨.sw, 0x00002023#32, 0x0000707F#32⟩) (by decide) h, ?_⟩
  rintro rs1 rs2 imm s _ rfl hle
  obtain ⟨h0, h1, h2, h3, hapart⟩ := s.dmem.putWord_bytes (alignDown (s.effAddr rs1 imm)).toNat (s.getReg rs2)
  exact ⟨_, exec_sw_of_le rs2 hle, retired_storeWord .., fun _ => rfl, h0, h1, h2, h3, hapart, rfl⟩

/-- Settles O15: beyond the limit either access is refused, and the instruction is the fault transition. -/
theorem accessBeyondTheLimitFaults : Obligations.AccessBeyondTheLimitFaults :=
  ⟨fun rd _ _ s hlt => ⟨_, exec_lw_of_lt rd hlt, faulted_takeFault s _ _⟩,
    fun _ rs2 _ s hlt => ⟨_, exec_sw_of_lt rs2 hlt, faulted_takeFault s _ _⟩⟩

/-- Settles O20: the store leaves the registers, so the load's address is the one given, and it reads the stored word. -/
theorem storeInstructionThenLoadInstruction : Obligations.StoreInstructionThenLoadInstruction := by
  intro s base data base' rd imm imm' hsame hle
  refine ⟨_, exec_sw_of_le data hle, _, exec_lw_of_le rd (hsame ▸ hle), ?_⟩
  simp only [retire_getReg]
  by_cases hrd : rd = 0#5
  · rw [if_pos hrd, hrd, getReg_zero]
  · rw [if_neg hrd, getReg_setReg_same _ _ hrd]
    exact dmemWord_storeWord_same s (s.getReg data) hsame

end Sys2Proof.Machine
end

section
/-! ### BEQ and BNE (44_branch_jump.md R190, R191) -/

namespace Sys2Proof.Machine

theorem exec_beq (rs1 rs2 : RegIdx) (imm : BitVec 13) (s : State) :
    exec (.beq rs1 rs2 imm) s =
      .next (s.retire (if s.getReg rs1 = s.getReg rs2 then s.pc + sext imm else s.pc + 4#32)) := by
  simp only [exec, execBeq, State.branch, condHolds_eq_iff]

theorem exec_bne (rs1 rs2 : RegIdx) (imm : BitVec 13) (s : State) :
    exec (.bne rs1 rs2 imm) s =
      .next (s.retire (if s.getReg rs1 = s.getReg rs2 then s.pc + 4#32 else s.pc + sext imm)) := by
  simp only [exec, execBne, State.branch, condHolds_ne_iff, ite_not]

/-- Settles O16: a branch is a retirement, to the target on the condition of its row. -/
theorem branchesComplete : Obligations.BranchesComplete := by
  refine ⟨fun w h => ?_, fun w h => ?_, fun rs1 rs2 imm s => ⟨?_, ?_⟩⟩
  · exact decode_of_row (r := ⟨.beq, 0x00000063#32, 0x0000707F#32⟩) (by decide) h
  · exact decode_of_row (r := ⟨.bne, 0x00001063#32, 0x0000707F#32⟩) (by decide) h
  · exact ⟨_, exec_beq rs1 rs2 imm s, retired_retire s _, fun _ => rfl, ⟨fun _ => rfl, rfl⟩⟩
  · exact ⟨_, exec_bne rs1 rs2 imm s, retired_retire s _, fun _ => rfl, ⟨fun _ => rfl, rfl⟩⟩

end Sys2Proof.Machine
end

section
/-! ### What a cycle runs (20_memory.md section 2, 40_datapath.md section 1) -/

namespace Sys2Proof

/-- Bytes that decode begin with four that make up a decodable word, and the others are left. -/
theorem decode_of_decodeBytes {b0 b1 b2 b3 : Byte} {more rest : List Byte} {i : Instr}
    (h : decodeBytes (b0 :: b1 :: b2 :: b3 :: more) = .ok (i, rest)) :
    decode (wordOfBytes b0 b1 b2 b3) = .ok i ∧ rest = more := by
  cases hdec : decode (wordOfBytes b0 b1 b2 b3) with
  | error e => simp [decodeBytes, hdec] at h
  | ok j =>
    rw [decodeBytes_of_decode hdec more] at h
    cases h
    exact ⟨rfl, rfl⟩

theorem decode_of_decodeTableWord {nbits w : Nat} {i : Instr} (h : decodeTableWord nbits w = some i) :
    decode (tableWord nbits w) = .ok i := by
  unfold decodeTableWord at h
  split at h
  · next j rest hbytes =>
    cases h
    simpa only [Machine.wordOfBytes_byteOfWord] using (decode_of_decodeBytes hbytes).1
  · cases h

end Sys2Proof

namespace Sys2Proof.Machine

/-- Settles O26: the successor is the cycle of the datapath, a total function. -/
theorem everyStepAnswersNext : Obligations.EveryStepAnswersNext := fun s => ⟨_, stepIsTheDatapathCycle s⟩

/-- Settles O22: the four image bytes are the fetched word. -/
theorem stepRunsTheDecodedInstruction : Obligations.StepRunsTheDecodedInstruction := by
  rintro s _ i rest hrun rfl hle hbytes
  obtain ⟨hdec, hrest⟩ := decode_of_decodeBytes hbytes
  exact ⟨wf_of_decode hdec, hrest, step_decoded hrun (ifetch_eq_some.mpr ⟨hle, rfl⟩) hdec⟩

theorem withFetchWord_run (s : State) (nbits w : Nat) : (s.withFetchWord nbits w).run = .running := by
  unfold State.withFetchWord
  split
  · assumption
  · rfl

theorem withFetchWord_ifetch (s : State) (nbits w : Nat) :
    (s.withFetchWord nbits w).ifetch (s.withFetchWord nbits w).pc = some (tableWord nbits w) := by
  unfold State.withFetchWord
  split
  · exact ifetch_placeWord s s.pc _
  · exact ifetch_placeWord s.releaseRun s.pc _

/-- Settles O23: the state with the word placed is Running and fetches that word. -/
theorem placedWordRunsNext : Obligations.PlacedWordRunsNext := fun s nbits w _ h =>
  step_decoded (withFetchWord_run s nbits w) (withFetchWord_ifetch s nbits w) (decode_of_decodeTableWord h)

end Sys2Proof.Machine
end

section
/-! ### Faults (60_exceptions.md sections 1 and 2) -/

namespace Sys2Proof.Machine

/-- Settles O24: a word that matches no row is rejected, and that cycle is the fault transition. -/
theorem illegalWordFaults : Obligations.IllegalWordFaults := by
  intro s w hrun hfetch hnone
  obtain ⟨e, hdec⟩ := decode_error_of_no_row hnone
  exact ⟨_, step_illegal hrun hfetch hdec, faulted_takeFault s .decodeError w⟩

/-- The one fault of an instruction is the refused access, which takes an address space larger than the store. -/
theorem Effect.fault_cases {i : Instr} {s t : State} (e : Effect i s t) (hs : s.haltCause = .none)
    (ht : t.haltCause = .fault) :
    t = s.takeFault .dataAddressOutOfRange (encode i) ∧ s.cfg.dmemLimit < 4294967296 := by
  cases e with
  | refused a hlt => exact ⟨rfl, Nat.lt_of_lt_of_le hlt (alignDown_add_four_le a)⟩
  | halted => cases ht
  | wrote | moved | loaded | stored => simp [hs] at ht

/-- All a cycle that ends in a fault can be: the fault transition with the fetched word, as an illegal word or, where
DMEM_LIMIT is below 2^32, as a refused access. -/
theorem step_fault_cases {s t : State} (hrun : s.run = .running) (hs : s.haltCause = .none) (h : step s = .next t)
    (ht : t.haltCause = .fault) :
    ∃ w, s.ifetch s.pc = some w ∧
      (t = s.takeFault .decodeError w ∨
        t = s.takeFault .dataAddressOutOfRange w ∧ s.cfg.dmemLimit < 4294967296) := by
  obtain ⟨hhalted, -⟩ | ⟨-, -, rfl⟩ | ⟨w, e, -, hfetch, -, rfl⟩ | ⟨w, i, -, hfetch, hdec, hexec⟩ := step_cases h
  · rw [hrun] at hhalted
    cases hhalted
  · cases ht
  · exact ⟨w, hfetch, .inl rfl⟩
  · have hfault := (exec_cases hexec).fault_cases hs ht
    rw [encode_of_decode hdec] at hfault
    exact ⟨w, hfetch, .inr hfault⟩

/-- Settles O25: either fault of a cycle is the fault transition. -/
theorem faultsArePrecise : Obligations.FaultsArePrecise := by
  intro s t hrun hs h ht
  obtain ⟨w, hfetch, rfl | ⟨rfl, -⟩⟩ := step_fault_cases hrun hs h ht
  · exact ⟨w, _, hfetch, .inl rfl, faulted_takeFault s .decodeError w⟩
  · exact ⟨w, _, hfetch, .inr rfl, faulted_takeFault s .dataAddressOutOfRange w⟩

/-- Settles O41: with the whole address space in the store no access is refused. -/
theorem unboundedStoreNeverRefusesAnAddress : Obligations.UnboundedStoreNeverRefusesAnAddress := by
  intro s t hlimit hrun hs h ht
  obtain ⟨w, -, rfl | ⟨-, hlt⟩⟩ := step_fault_cases hrun hs h ht
  · rfl
  · omega

/-- Settles O3: the component's two ranges by its definition; a cycle's faults have code 1 or 3; every step answers a next
state. -/
theorem registerIndexContract : Obligations.RegisterIndexContract := by
  refine ⟨fun s i v hi => ⟨if_neg (Nat.not_lt.mpr hi), if_neg (Nat.not_lt.mpr hi)⟩, fun s r v => ?_,
    fun s t hrun hs h ht => ?_, fun s f h => ?_⟩
  · have hr : r.toNat < 32 := r.isLt
    simp only [State.readIndex, State.writeIndex, if_pos hr, BitVec.ofNat_toNat, BitVec.setWidth_eq, and_self]
  · obtain ⟨w, -, rfl | ⟨rfl, -⟩⟩ := step_fault_cases hrun hs h ht <;> simp
  · obtain ⟨t, ht⟩ := everyStepAnswersNext s
    rw [ht] at h
    cases h

end Sys2Proof.Machine
end

section
/-! ### How the pc advances (10_state.md section 2, 40_datapath.md section 8) -/

namespace Sys2Proof.Machine

/-- The pc after an instruction that does not halt (R143, R144). -/
def State.nextPc (s : State) : Instr → Word
  | .beq rs1 rs2 imm => if s.getReg rs1 = s.getReg rs2 then s.pc + sext imm else s.pc + 4#32
  | .bne rs1 rs2 imm => if s.getReg rs1 = s.getReg rs2 then s.pc + 4#32 else s.pc + sext imm
  | .jal _ imm => s.pc + sext imm
  | _ => s.pc + 4#32

/-- An instruction halts with the pc held, or leaves the run state and goes on at `nextPc`. -/
theorem exec_pc {i : Instr} {s t : State} (h : exec i s = .next t) :
    t.run = .halted ∧ t.pc = s.pc ∨ t.run = s.run ∧ t.pc = s.nextPc i := by
  cases i with
  | add | sub | xor | or | and | addi | xori | ori | andi | jal =>
    cases h
    exact .inr ⟨setReg_run .., rfl⟩
  | lw rd rs1 imm =>
    by_cases hle : (alignDown (s.effAddr rs1 imm)).toNat + 4 ≤ s.cfg.dmemLimit
    · rw [exec_lw_of_le rd hle] at h
      cases h
      exact .inr ⟨setReg_run .., rfl⟩
    · rw [exec_lw_of_lt rd (Nat.lt_of_not_le hle)] at h
      cases h
      exact .inl ⟨rfl, rfl⟩
  | sw rs1 rs2 imm =>
    by_cases hle : (alignDown (s.effAddr rs1 imm)).toNat + 4 ≤ s.cfg.dmemLimit
    · rw [exec_sw_of_le rs2 hle] at h
      cases h
      exact .inr ⟨rfl, rfl⟩
    · rw [exec_sw_of_lt rs2 (Nat.lt_of_not_le hle)] at h
      cases h
      exact .inl ⟨rfl, rfl⟩
  | beq rs1 rs2 imm =>
    rw [exec_beq] at h
    cases h
    exact .inr ⟨rfl, rfl⟩
  | bne rs1 rs2 imm =>
    rw [exec_bne] at h
    cases h
    exact .inr ⟨rfl, rfl⟩
  | halt =>
    cases h
    exact .inl ⟨rfl, rfl⟩

/-- All the pc can do in a cycle. -/
theorem step_pc_cases {s t : State} (h : step s = .next t) :
    t.run = .halted ∧ t.pc = s.pc ∨
      ∃ w i, s.ifetch s.pc = some w ∧ decode w = .ok i ∧ t.run = .running ∧ t.pc = s.nextPc i := by
  obtain ⟨hhalted, rfl⟩ | ⟨-, -, rfl⟩ | ⟨_, _, -, -, -, rfl⟩ | ⟨w, i, hrun, hfetch, hdec, hexec⟩ := step_cases h
  · exact .inl ⟨hhalted, rfl⟩
  · exact .inl ⟨rfl, rfl⟩
  · exact .inl ⟨rfl, rfl⟩
  · exact (exec_pc hexec).imp_right (fun ⟨hrun', hpc⟩ => ⟨w, i, hfetch, hdec, hrun'.trans hrun, hpc⟩)

/-- The next pc of a fetched word, in terms of its fields. -/
theorem nextPc_of_decode (s : State) {w : Word} {i : Instr} (h : decode w = .ok i) :
    s.nextPc i =
      if opcodeOf w = 0x63#7 ∧ funct3Of w = 0b000#3 ∧ s.getReg (rs1Of w) = s.getReg (rs2Of w) ∨
          opcodeOf w = 0x63#7 ∧ funct3Of w = 0b001#3 ∧ s.getReg (rs1Of w) ≠ s.getReg (rs2Of w) then
        s.pc + sext (immBOf w)
      else if opcodeOf w = 0x6F#7 then s.pc + sext (immJOf w)
      else s.pc + 4#32 := by
  obtain ⟨m, hkey, rfl⟩ := exists_rowKey_of_decode h
  cases m with
  | add | sub | xor | or | and | addi | xori | ori | andi | lw | sw =>
    have hop := hkey.1
    simp [instrOf, State.nextPc, hop]
  | jal | halt =>
    have hop : opcodeOf w = _ := hkey
    simp [instrOf, State.nextPc, hop]
  | beq | bne =>
    obtain ⟨hop, h3⟩ := hkey
    simp [instrOf, State.nextPc, hop, h3]

/-- Settles O27: the pc is held at a halt, and else goes to the next pc of the fetched word's instruction. -/
theorem pcAdvances : Obligations.PcAdvances := by
  intro s t hrun h
  obtain ⟨hhalted, hpc⟩ | ⟨w, i, hfetch, hdec, hrunning, hpc⟩ := step_pc_cases h
  · refine ⟨fun _ => hpc, fun _ => hpc, fun _ _ hrunning => ?_⟩
    rw [hhalted] at hrunning
    cases hrunning
  · refine ⟨fun hnone => ?_, fun hhalted => ?_, fun w' hfetch' _ => ?_⟩
    · rw [hfetch] at hnone
      cases hnone
    · rw [hrunning] at hhalted
      cases hhalted
    · rw [hfetch] at hfetch'
      cases hfetch'
      exact hpc.trans (nextPc_of_decode s hdec)

/-! The pc stays even: sums and sign extensions of even numbers are even. -/

theorem getLsbD_zero_eq_false_iff {n : Nat} (a : BitVec n) : a.getLsbD 0 = false ↔ a.toNat % 2 = 0 := by
  simp [BitVec.getLsbD]

theorem even_add {a b : Word} (ha : a.getLsbD 0 = false) (hb : b.getLsbD 0 = false) : (a + b).getLsbD 0 = false := by
  rw [getLsbD_zero_eq_false_iff] at ha hb ⊢
  rw [BitVec.toNat_add]
  omega

theorem even_sext {n : Nat} {imm : BitVec (n + 1)} (hn : 0 < n) (h : imm.getLsbD 0 = false) :
    (sext imm).getLsbD 0 = false := by
  rw [getLsbD_sext imm (by decide), if_pos hn, h]

/-- The next pc of a well-formed instruction is even where the pc is. -/
theorem nextPc_even {s : State} {i : Instr} (hs : s.pcEven) (hi : i.wf = true) : (s.nextPc i).getLsbD 0 = false := by
  have hnext : (s.pc + 4#32).getLsbD 0 = false := even_add hs rfl
  cases i with
  | add | sub | xor | or | and | addi | xori | ori | andi | lw | sw | halt => exact hnext
  | jal rd imm => exact even_add hs (even_sext (by decide) ((Bool.not_eq_true' _).mp hi))
  | beq rs1 rs2 imm | bne rs1 rs2 imm =>
    have htarget : (s.pc + sext imm).getLsbD 0 = false :=
      even_add hs (even_sext (by decide) ((Bool.not_eq_true' _).mp hi))
    simp only [State.nextPc]
    split <;> assumption

/-- Settles O47: the pc is held or is the next pc of a decoded instruction, whose immediate is even. -/
theorem stepKeepsThePcEven : Obligations.StepKeepsThePcEven := by
  intro s t hs h
  obtain ⟨-, hpc⟩ | ⟨w, i, -, hdec, -, hpc⟩ := step_pc_cases h
  · rwa [State.pcEven, hpc]
  · rw [State.pcEven, hpc]
    exact nextPc_even hs (wf_of_decode hdec)

end Sys2Proof.Machine
end

section
/-! ### What a cycle leaves unchanged (20_memory.md sections 3 and 5, 40_datapath.md sections 7 and 10) -/

namespace Sys2Proof.Machine

/-- An instruction writes at most one register. -/
theorem Effect.only_one_register {i : Instr} {s t : State} (e : Effect i s t) :
    ∃ rd, ∀ r, r ≠ rd → t.getReg r = s.getReg r := by
  cases e with
  | wrote rd v npc => exact ⟨rd, fun r hr => getReg_setReg_of_ne s v hr⟩
  | loaded rd a _ => exact ⟨rd, fun r hr => getReg_setReg_of_ne (s.grow a) _ hr⟩
  | moved | stored | halted | refused => exact ⟨0#5, fun _ _ => rfl⟩

/-- Settles O37: a cycle that executes no instruction writes no register. -/
theorem atMostOneRegisterChanges : Obligations.AtMostOneRegisterChanges := by
  intro s t h
  obtain ⟨-, rfl⟩ | ⟨-, -, rfl⟩ | ⟨_, _, -, -, -, rfl⟩ | ⟨_, _, -, -, -, hexec⟩ := step_cases h
  · exact ⟨0#5, fun _ _ => rfl⟩
  · exact ⟨0#5, fun _ _ => rfl⟩
  · exact ⟨0#5, fun _ _ => rfl⟩
  · exact (exec_cases hexec).only_one_register

theorem Effect.sameImage {i : Instr} {s t : State} (e : Effect i s t) : SameImage s t := by
  cases e with
  | wrote rd v npc => exact ⟨setReg_imem s rd v, setReg_ilen s rd v, setReg_cfg s rd v⟩
  | loaded rd a _ => exact ⟨setReg_imem (s.grow a) rd _, setReg_ilen (s.grow a) rd _, setReg_cfg (s.grow a) rd _⟩
  | moved | stored | halted | refused => exact ⟨rfl, rfl, rfl⟩

theorem step_sameImage {s t : State} (h : step s = .next t) : SameImage s t := by
  obtain ⟨-, rfl⟩ | ⟨-, -, rfl⟩ | ⟨_, _, -, -, -, rfl⟩ | ⟨_, _, -, -, -, hexec⟩ := step_cases h
  · exact ⟨rfl, rfl, rfl⟩
  · exact ⟨rfl, rfl, rfl⟩
  · exact ⟨rfl, rfl, rfl⟩
  · exact (exec_cases hexec).sameImage

/-- Settles O38: no operation writes the image, and a fetch depends on the image alone. -/
theorem imageNeverChanges : Obligations.ImageNeverChanges := fun _ _ h =>
  ⟨step_sameImage h, fun a => ifetch_congr (step_sameImage h) a⟩

/-- What an instruction can do to the data store: nothing, LW's growth, or SW's write and growth. -/
theorem exec_data_cases {i : Instr} {s t : State} (h : exec i s = .next t) :
    t.dmem = s.dmem ∧ t.dlen = s.dlen ∨
    (∃ rd rs1 imm, i = .lw rd rs1 imm ∧ t.dmem = s.dmem ∧ s.dlen ≤ t.dlen) ∨
    (∃ rs1 rs2 imm, i = .sw rs1 rs2 imm ∧
      t.dmem = s.dmem.putWord (alignDown (s.effAddr rs1 imm)).toNat (s.getReg rs2) ∧ s.dlen ≤ t.dlen) := by
  cases i with
  | add | sub | xor | or | and | addi | xori | ori | andi | jal =>
    cases h
    exact .inl ⟨setReg_dmem .., setReg_dlen ..⟩
  | beq | bne | halt =>
    cases h
    exact .inl ⟨rfl, rfl⟩
  | lw rd rs1 imm =>
    by_cases hle : (alignDown (s.effAddr rs1 imm)).toNat + 4 ≤ s.cfg.dmemLimit
    · rw [exec_lw_of_le rd hle] at h
      cases h
      exact .inr (.inl ⟨rd, rs1, imm, rfl, setReg_dmem .., by simp⟩)
    · rw [exec_lw_of_lt rd (Nat.lt_of_not_le hle)] at h
      cases h
      exact .inl ⟨rfl, rfl⟩
  | sw rs1 rs2 imm =>
    by_cases hle : (alignDown (s.effAddr rs1 imm)).toNat + 4 ≤ s.cfg.dmemLimit
    · rw [exec_sw_of_le rs2 hle] at h
      cases h
      exact .inr (.inr ⟨rs1, rs2, imm, rfl, rfl, Nat.le_max_left ..⟩)
    · rw [exec_sw_of_lt rs2 (Nat.lt_of_not_le hle)] at h
      cases h
      exact .inl ⟨rfl, rfl⟩

/-- A cycle leaves the data store alone, or executes a fetched instruction. -/
theorem step_data_cases {s t : State} (h : step s = .next t) :
    t.dmem = s.dmem ∧ t.dlen = s.dlen ∨
      ∃ w i, s.run = .running ∧ s.ifetch s.pc = some w ∧ decode w = .ok i ∧ exec i s = .next t := by
  obtain ⟨-, rfl⟩ | ⟨-, -, rfl⟩ | ⟨_, _, -, -, -, rfl⟩ | hexec := step_cases h
  · exact .inl ⟨rfl, rfl⟩
  · exact .inl ⟨rfl, rfl⟩
  · exact .inl ⟨rfl, rfl⟩
  · exact .inr hexec

/-- A byte that a write of a word changes is one of the word's. -/
theorem Memory.get_putWord_ne {m : Memory} {a b : Nat} {v : Word} (h : (m.putWord a v).get b ≠ m.get b) :
    a ≤ b ∧ b < a + 4 := by
  by_contra hout
  exact h ((Memory.get_putWord m a b v).trans (if_neg hout))

theorem lw_row_iff (w : Word) : w &&& 0x0000707F#32 = 0x00002003#32 ↔ RowKey w .lw :=
  row_matches_iff_rowKey w (r := ⟨.lw, 0x00002003#32, 0x0000707F#32⟩) (by decide)

theorem sw_row_iff (w : Word) : w &&& 0x0000707F#32 = 0x00002023#32 ↔ RowKey w .sw :=
  row_matches_iff_rowKey w (r := ⟨.sw, 0x00002023#32, 0x0000707F#32⟩) (by decide)

/-- Settles O39: only SW puts a word, at the aligned address its fields give, and no byte outside that word changes. -/
theorem onlyStoresChangeBytes : Obligations.OnlyStoresChangeBytes := by
  intro s t b h hne
  obtain ⟨hmem, -⟩ | ⟨w, i, hrun, hfetch, hdec, hexec⟩ := step_data_cases h
  · exact absurd (congrArg (Memory.get · b) hmem) hne
  obtain ⟨hmem, -⟩ | ⟨_, _, _, -, hmem, -⟩ | ⟨rs1, rs2, imm, rfl, hmem, -⟩ := exec_data_cases hexec
  · exact absurd (congrArg (Memory.get · b) hmem) hne
  · exact absurd (congrArg (Memory.get · b) hmem) hne
  · have hkey : RowKey w .sw := rowKey_of_decode hdec
    cases hdec.symm.trans (decode_of_rowKey hkey)
    refine ⟨w, _, hrun, hfetch, (sw_row_iff w).mpr hkey, rfl, ?_⟩
    rw [hmem] at hne
    exact Memory.get_putWord_ne hne

/-- Settles O40: only LW and SW touch the length, and both grow it. -/
theorem dataStoreNeverShrinks : Obligations.DataStoreNeverShrinks := by
  intro s t h
  obtain ⟨-, hlen⟩ | ⟨w, i, -, hfetch, hdec, hexec⟩ := step_data_cases h
  · exact ⟨hlen.ge, fun hne => absurd hlen hne⟩
  obtain ⟨-, hlen⟩ | ⟨_, _, _, rfl, -, hle⟩ | ⟨_, _, _, rfl, -, hle⟩ := exec_data_cases hexec
  · exact ⟨hlen.ge, fun hne => absurd hlen hne⟩
  · exact ⟨hle, fun _ => ⟨w, hfetch, .inl ((lw_row_iff w).mpr (rowKey_of_decode hdec))⟩⟩
  · exact ⟨hle, fun _ => ⟨w, hfetch, .inr ((sw_row_iff w).mpr (rowKey_of_decode hdec))⟩⟩

end Sys2Proof.Machine
end

section
/-! ### What no cycle reads (10_state.md section 3)

The cycle is followed through the blocks of the datapath, which every instruction shares. -/

namespace Sys2Proof.Machine

/-- The state with another idle flag and fault record. -/
def State.withUnread (s : State) (b : Bool) (f : FaultRecord) : State := { s with ifNop := b, fault := f }

/-- What `withUnread` before a cycle makes of the state after it: a fault has written its own record, and else the record
is still `f`. -/
def State.afterUnread (t : State) (f : FaultRecord) : State := if t.haltCause = .fault then t else { t with fault := f }

section
variable (s : State) (b : Bool) (f : FaultRecord)

theorem withUnread_setReg (rd : RegIdx) (v : Word) :
    (s.withUnread b f).setReg rd v = (s.setReg rd v).withUnread b f := by
  unfold State.setReg
  split <;> rfl

theorem withUnread_memRead (a : Word) :
    (s.withUnread b f).memRead a = (s.memRead a).map (fun p => (p.1, p.2.withUnread b f)) := by
  by_cases hle : (alignDown a).toNat + 4 ≤ s.cfg.dmemLimit
  · rw [memRead_of_le hle]
    exact memRead_of_le (s := s.withUnread b f) hle
  · rw [memRead_eq_none.mpr (Nat.lt_of_not_le hle)]
    exact memRead_eq_none.mpr (Nat.lt_of_not_le hle)

theorem withUnread_memWrite (a v : Word) :
    (s.withUnread b f).memWrite a v = (s.memWrite a v).map (fun t => t.withUnread b f) := by
  by_cases hle : (alignDown a).toNat + 4 ≤ s.cfg.dmemLimit
  · rw [memWrite_of_le hle]
    exact memWrite_of_le (s := s.withUnread b f) hle
  · rw [memWrite_eq_none.mpr (Nat.lt_of_not_le hle)]
    exact memWrite_eq_none.mpr (Nat.lt_of_not_le hle)

theorem withUnread_memoryAccess (d : ExRecord) (e : ExecuteOut) :
    (s.withUnread b f).memoryAccess d e = (s.memoryAccess d e).map (fun p => (p.1, p.2.withUnread b f)) := by
  unfold State.memoryAccess
  split
  · exact withUnread_memRead ..
  · split
    · rw [withUnread_memWrite, Option.map_map, Option.map_map]
      rfl
    · rfl

theorem withUnread_writeback (d : ExRecord) (e : ExecuteOut) (ld : Word) :
    (s.withUnread b f).writeback d e ld = (s.writeback d e ld).withUnread b f := by
  unfold State.writeback
  split
  · exact withUnread_setReg ..
  · rfl

end

/-! No block but the fault transition and the normal halt writes the halt cause. -/

theorem memoryAccess_haltCause {s t : State} {d : ExRecord} {e : ExecuteOut} {ld : Word}
    (h : s.memoryAccess d e = some (ld, t)) : t.haltCause = s.haltCause := by
  unfold State.memoryAccess at h
  split at h
  · obtain ⟨-, -, rfl⟩ := memRead_cases h
    rfl
  · split at h
    · obtain ⟨u, hu, hpair⟩ := Option.map_eq_some_iff.mp h
      obtain ⟨-, rfl⟩ := memWrite_cases hu
      cases hpair
      rfl
    · cases h
      rfl

theorem writeback_haltCause (s : State) (d : ExRecord) (e : ExecuteOut) (ld : Word) :
    (s.writeback d e ld).haltCause = s.haltCause := by
  unfold State.writeback
  split
  · exact setReg_haltCause ..
  · rfl

theorem executeRecord_withUnread {s : State} (hcause : s.haltCause = .none) (b : Bool) (f : FaultRecord) (w : Word)
    (d : ExRecord) : (s.withUnread b f).executeRecord w d = (s.executeRecord w d).afterUnread f := by
  have haccess := withUnread_memoryAccess s b f d (s.execute d)
  cases h : s.memoryAccess d (s.execute d) with
  | none =>
    rw [h] at haccess
    rw [executeRecord_refused h, executeRecord_refused (s := s.withUnread b f) haccess]
    rfl
  | some p =>
    obtain ⟨ld, t⟩ := p
    rw [h] at haccess
    have hretired : ((t.writeback d (s.execute d) ld).retire (s.execute d).npc).haltCause ≠ .fault := by
      rw [retire_haltCause, writeback_haltCause, memoryAccess_haltCause h, hcause]
      decide
    rw [executeRecord_accessed h, executeRecord_accessed (s := s.withUnread b f) haccess, withUnread_writeback,
      State.afterUnread, if_neg hretired]
    rfl

/-- A cycle of a running core reads neither the idle flag nor the fault record. -/
theorem step_withUnread {s t : State} (hrun : s.run = .running) (hcause : s.haltCause = .none) (h : step s = .next t)
    (b : Bool) (f : FaultRecord) : step (s.withUnread b f) = .next (t.afterUnread f) := by
  obtain rfl : s.datapathCycle = t := Host.Outcome.next.inj ((stepIsTheDatapathCycle s).symm.trans h)
  refine (stepIsTheDatapathCycle (s.withUnread b f)).trans (congrArg _ ?_)
  cases hf : s.ifetch s.pc with
  | none =>
    rw [datapathCycle_notFound hrun hf, datapathCycle_notFound (s := s.withUnread b f) hrun hf]
    rfl
  | some w =>
    by_cases hop : opcodeOf w = 0x7F#7
    · rw [datapathCycle_sentinel hrun hf hop, datapathCycle_sentinel (s := s.withUnread b f) hrun hf hop]
      rfl
    · cases hd : exOf w with
      | none =>
        rw [datapathCycle_illegal hrun hf hop hd, datapathCycle_illegal (s := s.withUnread b f) hrun hf hop hd]
        rfl
      | some d =>
        rw [datapathCycle_executed hrun hf hop hd, datapathCycle_executed (s := s.withUnread b f) hrun hf hop hd]
        exact executeRecord_withUnread hcause b f w d

/-- Settles O42: the idle flag alone is the case where the record is the state's own, which a cycle without a fault
keeps. -/
theorem idleFlagAndFaultRecordAreNotRead : Obligations.IdleFlagAndFaultRecordAreNotRead := by
  intro s t b f hrun hcause h
  have hkept : t.afterUnread s.fault = t :=
    Host.Outcome.next.inj ((step_withUnread hrun hcause h s.ifNop s.fault).symm.trans h)
  refine ⟨?_, step_withUnread hrun hcause h s.ifNop f⟩
  exact (step_withUnread hrun hcause h b s.fault).trans (congrArg _ hkept)

end Sys2Proof.Machine
end

section
/-! ### The machine invariant (10_state.md sections 3 and 4, 20_memory.md section 3)

Every operation keeps it; a step is one of them, or a few. -/

namespace Sys2Proof.Machine

theorem inv_setReg {s : State} (h : s.Inv) (rd : RegIdx) (v : Word) : (s.setReg rd v).Inv := by
  unfold State.setReg
  split <;> exact h

theorem inv_grow {s : State} (h : s.Inv) {a : Word} (ha : (alignDown a).toNat + 4 ≤ s.cfg.dmemLimit) :
    (s.grow a).Inv := by
  obtain ⟨hcfg, ⟨hdmem, himem, hdbelow, hibelow, hdlen, hilen⟩, hrun, hfit⟩ := h
  exact ⟨hcfg, ⟨hdmem, himem, fun c hc => Nat.lt_of_lt_of_le (hdbelow c hc) (Nat.le_max_left ..), hibelow,
    Nat.max_le.mpr ⟨hdlen, ha⟩, hilen⟩, hrun, hfit⟩

theorem inv_storeWord {s : State} (h : s.Inv) {a : Word} (v : Word)
    (ha : (alignDown a).toNat + 4 ≤ s.cfg.dmemLimit) : (s.storeWord a v).Inv := by
  obtain ⟨hcfg, ⟨hdmem, himem, hdbelow, hibelow, hdlen, hilen⟩, hrun, hfit⟩ := inv_grow h ha
  exact ⟨hcfg, ⟨Memory.wf_putWord hdmem _ v, himem, Memory.below_putWord hdbelow (Nat.le_max_right ..) v, hibelow,
    hdlen, hilen⟩, hrun, hfit⟩

theorem inv_retire {s : State} (h : s.Inv) (hrunning : s.run = .running) (npc : Word) : (s.retire npc).Inv := by
  obtain ⟨hcfg, hmem, ⟨hcause, -, hfault⟩, -, -, hrecord⟩ := h
  exact ⟨hcfg, hmem, ⟨hcause, by simp [hrunning], hfault⟩, countUp_lt s _, countUp_lt s _, hrecord⟩

theorem inv_haltNormally {s : State} (h : s.Inv) {c : HaltCause} (hnone : c ≠ .none) (hfault : c ≠ .fault) :
    (s.haltNormally c).Inv := by
  obtain ⟨hcfg, hmem, -, -, hinstret, hrecord⟩ := h
  exact ⟨hcfg, hmem, ⟨by simp [hnone], by simp, fun h => absurd h hfault⟩, countUp_lt s _, hinstret, hrecord⟩

theorem inv_takeFault {s : State} (h : s.Inv) {c : FaultCode} (w : Word)
    (hc : c = .decodeError ∨ c = .dataAddressOutOfRange) : (s.takeFault c w).Inv := by
  obtain ⟨hcfg, hmem, -, hcycle, hinstret, -⟩ := h
  exact ⟨hcfg, hmem, ⟨by simp, by simp, fun _ => hc⟩, hcycle, hinstret, hcycle⟩

theorem Effect.keeps_inv {i : Instr} {s t : State} (e : Effect i s t) (h : s.Inv) (hrun : s.run = .running) :
    t.Inv := by
  cases e with
  | wrote rd v npc => exact inv_retire (inv_setReg h rd v) ((setReg_run s rd v).trans hrun) npc
  | moved npc => exact inv_retire h hrun npc
  | loaded rd a ha => exact inv_retire (inv_setReg (inv_grow h ha) rd _) ((setReg_run (s.grow a) rd _).trans hrun) _
  | stored a v ha => exact inv_retire (inv_storeWord h v ha) hrun _
  | halted => exact inv_haltNormally h (by decide) (by decide)
  | refused => exact inv_takeFault h _ (.inr rfl)

/-- Settles O45: every way a cycle can end is made of operations that keep the invariant. -/
theorem stepKeepsTheInvariant : Obligations.StepKeepsTheInvariant := by
  intro s t hinv h
  obtain ⟨-, rfl⟩ | ⟨-, -, rfl⟩ | ⟨w, _, -, -, -, rfl⟩ | ⟨_, _, hrun, -, -, hexec⟩ := step_cases h
  · exact hinv
  · exact inv_haltNormally hinv (by decide) (by decide)
  · exact inv_takeFault hinv w (.inl rfl)
  · exact (exec_cases hexec).keeps_inv hinv hrun

end Sys2Proof.Machine
end

section
/-! ### The count (40_datapath.md section 9)

A cycle that starts Running starts with equal counters; what it ends in decides which of them count. -/

namespace Sys2Proof.Machine

theorem countersAgree_of_running {t : State} (hrun : t.run = .running) (heq : t.cycle = t.instret) :
    t.CountersAgree := by
  simp [State.CountersAgree, hrun, heq]

theorem countersAgree_haltNormally {s : State} (heq : s.cycle = s.instret) {c : HaltCause} (hc : c ≠ .fault) :
    (s.haltNormally c).CountersAgree := by
  simp [State.CountersAgree, hc, heq, State.countUp]

theorem countersAgree_takeFault {s : State} (heq : s.cycle = s.instret) (c : FaultCode) (w : Word) :
    (s.takeFault c w).CountersAgree := by
  simp [State.CountersAgree, heq]

theorem Effect.keeps_count {i : Instr} {s t : State} (e : Effect i s t) (hrun : s.run = .running)
    (heq : s.cycle = s.instret) : t.CountersAgree := by
  cases e with
  | wrote | moved | loaded | stored => exact countersAgree_of_running (by simp [hrun]) (by simp [heq])
  | halted => exact countersAgree_haltNormally heq (by decide)
  | refused => exact countersAgree_takeFault heq ..

/-- Settles O46: a halted cycle changes nothing; a running one retires and counts both, halts and counts one, or faults and
counts neither. -/
theorem stepKeepsTheCount : Obligations.StepKeepsTheCount := by
  intro s t hagree h
  have heq : s.run = .running → s.cycle = s.instret := hagree.1
  obtain ⟨-, rfl⟩ | ⟨hrun, -, rfl⟩ | ⟨w, _, hrun, -, -, rfl⟩ | ⟨_, _, hrun, -, -, hexec⟩ := step_cases h
  · exact hagree
  · exact countersAgree_haltNormally (heq hrun) (by decide)
  · exact countersAgree_takeFault (heq hrun) .decodeError w
  · exact (exec_cases hexec).keeps_count hrun (heq hrun)

end Sys2Proof.Machine
end

section
/-! ### Reset and the loader (70_reset_and_hazards.md sections 1 and 2) -/

namespace Sys2Proof.Machine

theorem Memory.wf_nil : Memory.wf [] := ⟨List.Pairwise.nil, fun _ hc => absurd hc List.not_mem_nil⟩

theorem Memory.below_nil (n : Nat) : Memory.below [] n := fun _ hc => absurd hc List.not_mem_nil

/-- An image placed from address 0 in an empty memory lies below its length. -/
theorem Memory.below_fill_nil (bs : List Byte) : (Memory.fill [] 0 bs).below bs.length :=
  Memory.below_fill (Memory.below_nil _) (Nat.zero_add _).le

/-- Settles O44: an image is placed byte by byte in canonical form, and the other values are those of reset. -/
theorem loadedStatesMeetTheInvariants : Obligations.LoadedStatesMeetTheInvariants := by
  intro image dimage cfg hcfg himage hdimage
  have hpos : 0 < 2 ^ cfg.ctrWidth := Nat.two_pow_pos _
  have hmem : (State.load image dimage cfg).memWf :=
    ⟨Memory.wf_fill Memory.wf_nil 0 dimage, Memory.wf_fill Memory.wf_nil 0 image, Memory.below_fill_nil dimage,
      Memory.below_fill_nil image, hdimage, himage⟩
  have hrun : (State.load image dimage cfg).runWf := by
    simp [State.runWf, State.load, State.reset]
  exact ⟨⟨hcfg, hmem, hrun, hpos, hpos, hpos⟩, countersAgree_of_running rfl rfl,
    show (0#32).getLsbD 0 = false by decide⟩

/-- Settles O43: the reset state is the loaded state of two empty images. -/
theorem resetMeetsTheInvariants : Obligations.ResetMeetsTheInvariants :=
  loadedStatesMeetTheInvariants [] [] defaultConfig (by decide) (by decide) (by decide)

theorem getReg_of_replicate {s : State} (h : s.x = Vector.replicate 31 0#32) (r : RegIdx) : s.getReg r = 0#32 := by
  simp [State.getReg, h]

/-- Settles O48: the data store is the data image and nothing past it; the other values are those of reset. -/
theorem resetSetsEveryPieceOfState : Obligations.ResetSetsEveryPieceOfState := by
  rintro s _ dimage rfl
  refine ⟨getReg_of_replicate rfl, rfl, rfl, rfl, rfl, rfl, rfl, rfl, fun k hk => ?_,
    fun k hk => Memory.get_of_below (Memory.below_fill_nil dimage) hk, ⟨rfl, rfl, rfl⟩⟩
  exact (Memory.get_fill [] 0 k dimage).trans (dif_pos ⟨Nat.zero_le k, by omega⟩)

/-- The four bytes of a word are placed as one write of the word (R53, R243). -/
theorem Memory.fill_bytesOfWord (m : Memory) (a : Nat) (v : Word) (bs : List Byte) :
    Memory.fill m a (bytesOfWord v ++ bs) = Memory.fill (m.putWord a v) (a + 4) bs := rfl

/-- Placing an image leaves the bytes before it. -/
theorem Memory.getWord_fill_before (m : Memory) (a b : Nat) (bs : List Byte) (h : b + 4 ≤ a) :
    (Memory.fill m a bs).getWord b = m.getWord b := by
  have byte : ∀ k < 4, (Memory.fill m a bs).get (b + k) = m.get (b + k) := fun k hk =>
    (Memory.get_fill m a (b + k) bs).trans (dif_neg (by omega))
  have b0 : (Memory.fill m a bs).get b = m.get b := byte 0 (by decide)
  rw [Memory.getWord, b0, byte 1 (by decide), byte 2 (by decide), byte 3 (by decide)]
  rfl

/-- Word `n` of an image of words, placed from `a`, is found at `a + 4 n`. -/
theorem Memory.getWord_fill_flatMap (m : Memory) (a n : Nat) (words : List Word) (h : n < words.length) :
    (Memory.fill m a (words.flatMap bytesOfWord)).getWord (a + 4 * n) = words[n] := by
  induction words generalizing m a n with
  | nil => cases h
  | cons v rest ih =>
    rw [List.flatMap_cons, Memory.fill_bytesOfWord]
    cases n with
    | zero =>
      rw [Memory.getWord_fill_before _ _ _ _ (by omega)]
      exact Memory.getWord_putWord_same m a v
    | succ n =>
      rw [show a + 4 * (n + 1) = a + 4 + 4 * n by omega]
      exact ih (m.putWord a v) (a + 4) n (Nat.lt_of_succ_lt_succ h)

theorem length_flatMap_bytesOfWord (words : List Word) : (words.flatMap bytesOfWord).length = 4 * words.length := by
  induction words with
  | nil => rfl
  | cons v rest ih =>
    rw [List.flatMap_cons, List.length_append, ih, List.length_cons]
    simp only [bytesOfWord, List.length_cons, List.length_nil]
    omega

/-- A multiple of 4 in the address space is its own aligned address. -/
theorem alignDown_ofNat_four_mul {n : Nat} (h : 4 * n < 4294967296) :
    (alignDown (BitVec.ofNat 32 (4 * n))).toNat = 4 * n := by
  rw [alignDown_toNat, BitVec.toNat_ofNat]
  omega

/-- Settles O49: the image's bytes are its words placed one after the other, and `4 n` is aligned. -/
theorem loadedWordIsFetched : Obligations.LoadedWordIsFetched := by
  intro words dimage cfg n hn hlen
  have hlength := length_flatMap_bytesOfWord words
  have hword := Memory.getWord_fill_flatMap [] 0 n words hn
  rw [Nat.zero_add] at hword
  rw [ifetch_eq_some, alignDown_ofNat_four_mul (by omega)]
  refine ⟨?_, hword.symm⟩
  change 4 * n + 4 ≤ (words.flatMap bytesOfWord).length
  omega

/-- The loader's shifts put back each of the eight digits, for each of the 256 bytes. -/
theorem byteOfLine_lineOfByte : ∀ b : Byte, byteOfLine (lineOfByte b) = some b := by decide

/-- Settles O50: a line has a digit a bit, and the loader reads them back. -/
theorem imageLineReadsBack : Obligations.ImageLineReadsBack := fun b => ⟨rfl, byteOfLine_lineOfByte b⟩

end Sys2Proof.Machine
end

section
/-! ### What the host sees (10_state.md section 7, 40_datapath.md sections 6 and 9) -/

namespace Sys2Proof.Machine

theorem traceRecord_of_step {s t : State} (hrun : s.run = .running) (h : step s = .next t) :
    s.traceRecord = some ⟨s.cycle, t.snapshot⟩ := by
  simp only [State.traceRecord, hrun, h]

theorem snapshot_regs (s : State) (k : Fin 32) : s.snapshot.regs[k] = s.getReg (BitVec.ofNat 5 k.val) := by
  simp [State.snapshot]

theorem snapshot_halted (s : State) : s.snapshot.halted = decide (s.run = .halted) := rfl

/-- Settles O51: the record is the cycle's number and the snapshot of the state after it. -/
theorem traceShowsTheStateAfterTheCycle : Obligations.TraceShowsTheStateAfterTheCycle := fun s t hrun h =>
  ⟨⟨s.cycle, t.snapshot⟩, traceRecord_of_step hrun h, rfl, rfl, rfl, snapshot_halted t, rfl, rfl, rfl, snapshot_regs t,
    (snapshot_regs t 0).trans (getReg_zero t)⟩

/-- Settles O52: the count after a normal halt is one more, which does not wrap, so no divisor but `instret` can be 0. -/
theorem normalRunSummary : Obligations.NormalRunSummary := by
  rintro s ⟨-, -, hnormal⟩ ⟨hhalted, hcause⟩ hwrap
  have hcycle : s.cycle = s.instret + 1 := by
    refine (hnormal hhalted ?_).trans (Nat.mod_eq_of_lt hwrap)
    rcases hcause with h | h <;> simp [h]
  refine ⟨hcycle, ?_, ?_⟩
  · simp [State.cpi, hcycle]
  · simp [State.ipc, hcycle]

/-- Settles O53: the dump lists the bytes of the addresses below `dlen` in order. -/
theorem dumpListsTheDataStore : Obligations.DumpListsTheDataStore := by
  refine fun s => ⟨?_, fun k hk => ?_⟩
  · rw [State.dump, List.length_map, List.length_range]
  · simp only [State.dump, List.getElem_map, List.getElem_range]

/-- A running cycle that fetches the sentinel has no record. -/
theorem cycleEx_sentinel {s : State} {w : Word} (hrun : s.run = .running) (hf : s.ifetch s.pc = some w)
    (hkey : RowKey w .halt) : s.cycleEx = none :=
  (cycleEx_fetched hrun hf).trans (if_pos hkey)

/-- A running cycle that fetches any other table word has the record of its class. -/
theorem cycleEx_of_rowKey {s : State} {w : Word} {m : Mnemonic} {c : InstrClass} (hrun : s.run = .running)
    (hf : s.ifetch s.pc = some w) (hkey : RowKey w m) (hc : classOf m = some c) :
    s.cycleEx = some (exOfClass w c) := by
  have hop : opcodeOf w ≠ 0x7F#7 := fun hop => by
    rw [rowKey_unique hkey (n := .halt) hop] at hc
    cases hc
  rw [cycleEx_fetched hrun hf, if_neg hop, exOf_of_rowKey hkey hc]

/-- A cycle that starts Halted, finds no word or fetches an illegal one has no record. -/
theorem cycleEx_eq_none {s : State}
    (h : s.run = .halted ∨ s.ifetch s.pc = none ∨
      ∃ w, s.ifetch s.pc = some w ∧ ∀ r ∈ opcodeTable, w &&& r.mask ≠ r.match_) : s.cycleEx = none := by
  cases hrun : s.run with
  | halted => exact cycleEx_halted hrun
  | running =>
    obtain hhalted | hf | ⟨w, hf, hnone⟩ := h
    · exact cycleEx_halted hhalted
    · exact cycleEx_notFound hf
    · obtain ⟨e, hdec⟩ := decode_error_of_no_row hnone
      rw [cycleEx_fetched hrun hf, exOf_of_decode_error hdec, ite_self]

/-- Settles O54: the strobes of a class are set for LW and SW alone. -/
theorem dataPortCarriesTheAccess : Obligations.DataPortCarriesTheAccess := by
  intro s w i hrun hf hdec
  obtain ⟨m, hkey, rfl⟩ := exists_rowKey_of_decode hdec
  cases m with
  | add | sub | xor | or | and | addi | xori | ori | andi | beq | bne | jal =>
    rw [dmemRequest_of_some (cycleEx_of_rowKey hrun hf hkey rfl)]
    exact ite_self none
  | lw | sw =>
    rw [dmemRequest_of_some (cycleEx_of_rowKey hrun hf hkey rfl)]
    simp only [State.dmemInRange, decide_eq_true_eq]
    rfl
  | halt => exact dmemRequest_of_none (cycleEx_sentinel hrun hf hkey)

/-- Settles O55: row by row, the port carries the outputs and strobes of the class's record. -/
theorem dataPortOfEveryCycle : Obligations.DataPortOfEveryCycle := by
  refine ⟨fun s w i hrun hf hdec => ?_, fun s h => dataPort_of_none (cycleEx_eq_none h), fun s a ha => ?_⟩
  · obtain ⟨m, hkey, rfl⟩ := exists_rowKey_of_decode hdec
    cases m with
    | halt => exact dataPort_of_none (cycleEx_sentinel hrun hf hkey)
    | _ =>
      rw [dataPort_of_some (cycleEx_of_rowKey hrun hf hkey rfl)]
      rfl
  · rw [dmemAnswer_of_addr ha]
    split
    · next hle => rw [memRead_of_le hle]; rfl
    · next hle => rw [memRead_eq_none.mpr (Nat.lt_of_not_le hle)]; rfl

end Sys2Proof.Machine
end
